-- ==== Sys2Proof/Config.lean ====
section
/-! DEFINITION. The fixed sizes of the machine. No rule leaves a value open, so there is no free value here (R150). -/

namespace Sys2Proof

/-- The number of bytes of data memory (R5, R47). -/
abbrev Config.memSize : Nat := 256

/-- The most words a program image may have (R6, R301; the spec's decision D5). -/
abbrev Config.maxProgram : Nat := 256

/-- The number of bits of a word, and of characters of a word string (R5, R105). -/
abbrev Config.wordBits : Nat := 8

end Sys2Proof
end

