-- ==== Sys2Proof/Word.lean ====
section
/-! DEFINITION. The machine's word: 8 bits, and the bit string that writes a word at the codec's interface. -/

namespace Sys2Proof

/-- A register, memory byte, program word, input byte or output byte: an unsigned number in 0..255 (R16). -/
abbrev Byte := BitVec 8

/-- A word string of `0`s and `1`s, `false` for `0` and `true` for `1`, leftmost character first (R15, R105).
A well-formed one has 8 characters, bit 7 first; one of another length is what the codec rejects. -/
abbrev BitString := List Bool

end Sys2Proof
end

