-- ==== Sys2Proof/Syntax.lean ====
section
/-! DEFINITION. The 19 instructions as terms, and the entries of an assembled program. -/

namespace Sys2Proof

/-- A general register, `R0` to `R3` (R31). The other names of R22 are spellings: A, B, C, D in this order, FP = R2,
SP = R3. -/
inductive Reg
  | r0 | r1 | r2 | r3
deriving DecidableEq, Repr

/-- A condition code, which is also the name of one bit of the flag register: V, C, Z, N are the codes 0, 1, 2, 3
and the bits 0, 1, 2, 3 (R35, R36). -/
inductive Cond
  | v | c | z | n
deriving DecidableEq, Repr

/-- The offset of `ld` and `st`: an unsigned number 0..3 (R5, R98). -/
abbrev Offset := BitVec 2

/-- The closed instruction set (R92). Every field is 2 bits, so every term has an encoding and none is ill-formed.
`set` carries its register alone: its data word is a word of program memory that its execution reads (R94, R167).
`inp` and `out` are the instructions `in` and `out`. -/
inductive Instr
  | nop (r : Reg)
  | inc (r : Reg)
  | dec (r : Reg)
  | mvlnk (r : Reg)
  | j (r : Reg)
  | jlnk (r : Reg)
  | inp (r : Reg)
  | out (r : Reg)
  | lshft (r : Reg)
  | rshft (r : Reg)
  | and (r : Reg)
  | set (r : Reg)
  | mv (rd rs : Reg)
  | add (rd rs : Reg)
  | sub (rd rs : Reg)
  | jcnd (cnd : Cond) (r : Reg)
  | jlnkcnd (cnd : Cond) (r : Reg)
  | ld (ofs : Offset) (rd rb : Reg)
  | st (ofs : Offset) (rs rb : Reg)
deriving DecidableEq, Repr

/-- One slot of an assembled program: an instruction, or the literal that is a `set`'s data word (R119, R123). -/
inductive ProgEntry
  | instr (i : Instr)
  | imm (v : Byte)
deriving DecidableEq, Repr

end Sys2Proof
end

