-- ==== Sys2Proof/WellFormed.lean ====
section
/-! DEFINITION. What is well formed: an instruction term, an assembled program, a `Reset` image. -/

namespace Sys2Proof

/-- Every instruction term is well formed: its fields are 2 bits each and no combination is reserved (R92, R106).
The bounds R92 gives are in the fields' types, so there is nothing left for this check to refuse. -/
def Instr.wf (_ : Instr) : Bool := true

/-- An assembled program is well formed when each `set` is followed by its literal and no literal stands anywhere
else (R94, R119). -/
def Program.wf : List ProgEntry → Bool
  | [] => true
  | .instr (.set _) :: .imm _ :: rest => Program.wf rest
  | .instr (.set _) :: _ => false
  | .instr _ :: rest => Program.wf rest
  | .imm _ :: _ => false

/-- A word string is well formed when it has exactly 8 characters (R105). -/
def BitString.wf (b : BitString) : Bool := decide (b.length = Config.wordBits)

/-- A `Reset` image is well formed when it has at most 256 words and each is exactly 8 bits (R301). -/
def Image.wf (p : List BitString) : Bool := decide (p.length ≤ Config.maxProgram) && p.all BitString.wf

end Sys2Proof
end

