-- ==== Sys2Proof/Decode.lean ====
section
/-! DEFINITION. The codec: words to instruction terms and back, instruction lengths, word strings, and the opcode table. -/

namespace Sys2Proof

/-- The 2-bit code of a register field (R98). -/
def Reg.ofBits (b : BitVec 2) : Reg :=
  match b.toNat with
  | 0 => .r0
  | 1 => .r1
  | 2 => .r2
  | _ => .r3

/-- The code of a register, the inverse of `Reg.ofBits` (R22). -/
def Reg.toBits : Reg → BitVec 2
  | .r0 => 0b00#2
  | .r1 => 0b01#2
  | .r2 => 0b10#2
  | .r3 => 0b11#2

/-- The condition a 2-bit field names (R98). -/
def Cond.ofBits (b : BitVec 2) : Cond :=
  match b.toNat with
  | 0 => .v
  | 1 => .c
  | 2 => .z
  | _ => .n

/-- The code of a condition, the inverse of `Cond.ofBits` (R36). -/
def Cond.toBits : Cond → BitVec 2
  | .v => 0b00#2
  | .c => 0b01#2
  | .z => 0b10#2
  | .n => 0b11#2

/-- The two-bit field `w[lo+1:lo]` of a word (R15). -/
def field2 (w : Byte) (lo : Nat) : BitVec 2 := w.extractLsb' lo 2

/-- `Decode(w)`: every word is exactly one instruction (R99, R100). -/
def decode (w : Byte) : Instr :=
  match (w.extractLsb' 6 2).toNat with
  | 0 =>
    let r := Reg.ofBits (field2 w 0)
    match (w.extractLsb' 2 4).toNat with
    | 0 => .nop r
    | 1 => .inc r
    | 2 => .dec r
    | 3 => .mvlnk r
    | 4 => .j r
    | 5 => .jlnk r
    | 6 => .inp r
    | 7 => .out r
    | 8 => .lshft r
    | 9 => .rshft r
    | 10 => .and r
    | 11 => .set r
    | _ => .mv (Reg.ofBits (field2 w 2)) r -- `w[5:4] = 0b11` (R95, C2)
  | 1 =>
    let a := field2 w 2
    let b := Reg.ofBits (field2 w 0)
    match (w.extractLsb' 4 2).toNat with
    | 0 => .add (Reg.ofBits a) b
    | 1 => .sub (Reg.ofBits a) b
    | 2 => .jcnd (Cond.ofBits a) b
    | _ => .jlnkcnd (Cond.ofBits a) b
  | 2 => .ld (field2 w 4) (Reg.ofBits (field2 w 2)) (Reg.ofBits (field2 w 0))
  | _ => .st (field2 w 4) (Reg.ofBits (field2 w 2)) (Reg.ofBits (field2 w 0))

/-- `Words(w)`: how many program words the instruction with this opcode word occupies (R9, R103). -/
def words (w : Byte) : Nat := if w &&& 0xFC#8 = 0x2C#8 then 2 else 1

/-- The codec's errors. `invalidEncoding` is the spec's (R105, R273); `noWord` is the answer of the byte-stream decoder
on an empty stream, where there is no word to decode. -/
inductive CodecError
  | invalidEncoding
  | noWord
deriving DecidableEq, Repr

/-- The decoder over a list of bytes: the first is the opcode word, the rest is handed back. The data word of a `set` is
the first byte of what is handed back, since it is never decoded (R94, R104). -/
def decodeStream : List Byte → Except CodecError (Instr × List Byte)
  | [] => .error .noWord
  | w :: rest => .ok (decode w, rest)

/-- The number a word string writes, leftmost character the most significant (R15). -/
def BitString.toNat (b : BitString) : Nat := b.foldl (fun acc x => 2 * acc + x.toNat) 0

/-- The word of a word string: refused when the length is not 8 (R105). -/
def BitString.toWord (b : BitString) : Except CodecError Byte :=
  if BitString.wf b then .ok (BitVec.ofNat 8 (BitString.toNat b)) else .error .invalidEncoding

/-- The 8 characters of a word, bit 7 first (R15, R105). -/
def BitString.ofWord (w : Byte) : BitString :=
  [w.getLsbD 7, w.getLsbD 6, w.getLsbD 5, w.getLsbD 4, w.getLsbD 3, w.getLsbD 2, w.getLsbD 1, w.getLsbD 0]

/-- `decode` at the interface of word strings: it fails with `InvalidEncoding` on a wrong length and on nothing else
(R105, C4). -/
def decodeString (b : BitString) : Except CodecError Instr := (BitString.toWord b).map decode

/-- The words of an image, an error as soon as a word string does not have 8 characters (R273, R301). -/
def imageWords : List BitString → Except CodecError (List Byte)
  | [] => .ok []
  | b :: p =>
    match BitString.toWord b, imageWords p with
    | .ok w, .ok ws => .ok (w :: ws)
    | .error e, _ => .error e
    | .ok _, .error e => .error e

/-- One row of the opcode table: a word `w` is the row's when `w &&& mask = bits`. -/
structure OpRow where
  mnemonic : String
  bits : Byte
  mask : Byte
deriving DecidableEq, Repr

/-- The match and mask of an instruction's row (R93, R95 to R97; opcode_table.json). -/
def opRow : Instr → OpRow
  | .nop _ => ⟨"nop", 0x00#8, 0xFC#8⟩
  | .inc _ => ⟨"inc", 0x04#8, 0xFC#8⟩
  | .dec _ => ⟨"dec", 0x08#8, 0xFC#8⟩
  | .mvlnk _ => ⟨"mvlnk", 0x0C#8, 0xFC#8⟩
  | .j _ => ⟨"j", 0x10#8, 0xFC#8⟩
  | .jlnk _ => ⟨"jlnk", 0x14#8, 0xFC#8⟩
  | .inp _ => ⟨"in", 0x18#8, 0xFC#8⟩
  | .out _ => ⟨"out", 0x1C#8, 0xFC#8⟩
  | .lshft _ => ⟨"lshft", 0x20#8, 0xFC#8⟩
  | .rshft _ => ⟨"rshft", 0x24#8, 0xFC#8⟩
  | .and _ => ⟨"and", 0x28#8, 0xFC#8⟩
  | .set _ => ⟨"set", 0x2C#8, 0xFC#8⟩
  | .mv _ _ => ⟨"mv", 0x30#8, 0xF0#8⟩
  | .add _ _ => ⟨"add", 0x40#8, 0xF0#8⟩
  | .sub _ _ => ⟨"sub", 0x50#8, 0xF0#8⟩
  | .jcnd _ _ => ⟨"jcnd", 0x60#8, 0xF0#8⟩
  | .jlnkcnd _ _ => ⟨"jlnkcnd", 0x70#8, 0xF0#8⟩
  | .ld _ _ _ => ⟨"ld", 0x80#8, 0xC0#8⟩
  | .st _ _ _ => ⟨"st", 0xC0#8, 0xC0#8⟩

/-- `base + code` for an instruction with one register field (R101). -/
def enc1 (base : Nat) (r : Reg) : Byte := BitVec.ofNat 8 (base + r.toBits.toNat)

/-- `base + 4*a + b` for an instruction with two 2-bit fields (R101). -/
def enc2 (base : Nat) (a b : BitVec 2) : Byte := BitVec.ofNat 8 (base + 4 * a.toNat + b.toNat)

/-- `base + 16*o + 4*a + b` for `ld` and `st` (R101). -/
def enc3 (base : Nat) (o : Offset) (a b : Reg) : Byte :=
  BitVec.ofNat 8 (base + 16 * o.toNat + 4 * a.toBits.toNat + b.toBits.toNat)

/-- `Encode(i)`: the opcode word of an instruction (R8, R101). -/
def encode : Instr → Byte
  | .nop r => enc1 0x00 r
  | .inc r => enc1 0x04 r
  | .dec r => enc1 0x08 r
  | .mvlnk r => enc1 0x0C r
  | .j r => enc1 0x10 r
  | .jlnk r => enc1 0x14 r
  | .inp r => enc1 0x18 r
  | .out r => enc1 0x1C r
  | .lshft r => enc1 0x20 r
  | .rshft r => enc1 0x24 r
  | .and r => enc1 0x28 r
  | .set r => enc1 0x2C r
  | .mv rd rs => enc2 0x30 rd.toBits rs.toBits
  | .add rd rs => enc2 0x40 rd.toBits rs.toBits
  | .sub rd rs => enc2 0x50 rd.toBits rs.toBits
  | .jcnd cnd r => enc2 0x60 cnd.toBits r.toBits
  | .jlnkcnd cnd r => enc2 0x70 cnd.toBits r.toBits
  | .ld ofs rd rb => enc3 0x80 ofs rd rb
  | .st ofs rs rb => enc3 0xC0 ofs rs rb

/-- The word string of an instruction (R8, R105). -/
def encodeString (i : Instr) : BitString := BitString.ofWord (encode i)

/-- The program word of an entry: an instruction is encoded, a literal is its 8-bit value (R123, R300). -/
def ProgEntry.word : ProgEntry → Byte
  | .instr i => encode i
  | .imm v => v

/-- The bytes of an instruction given as a number whose low 8 bits are the first word: two words, the longest form there
is, with every bit from `nbits` on zero. -/
def tableBytes (nbits w : Nat) : List Byte :=
  let v := w % 2 ^ nbits
  [BitVec.ofNat 8 v, BitVec.ofNat 8 (v / 256)]

/-- The instruction the decoder reads from a word numbered as opcode_table.json numbers it. -/
def decodeTableWord (nbits w : Nat) : Option Instr :=
  match decodeStream (tableBytes nbits w) with
  | .ok (i, _) => some i
  | .error _ => none

end Sys2Proof
end

