-- ==== Sys2Proof/Machine/State.lean ====
section
/-! DEFINITION. The state record of R30 as plain data, the faults and refusals, and the state a `Reset` leaves. -/

namespace Sys2Proof.Machine

/-- The closed enumeration of fault kinds, each with the address the spec records for it (R270, R275). -/
inductive Fault
  /-- Raised by `step` when the word at `addr` is beyond the program: `addr` is the pc of a fetch (R271), or `pc + 1` for a
  `set` without its data word (R272). The step ANSWERS a next state whose mode is `halted (outOfProgram addr)`, so this
  constructor is never the outcome of a step, it is the record kept in the mode (log 1). SAFE: nothing is lost. -/
  | outOfProgram (addr : Nat)
  /-- The codec's error, kept here because the spec's enumeration has it. No step raises it (R273). SAFE. -/
  | invalidEncoding
  /-- Raised by `step` before the first `Reset`, as the outcome of the step, which changes nothing (R147, R274). SAFE. -/
  | notLoaded
deriving DecidableEq, Repr

/-- Why the model gives no meaning to something. -/
inductive Refusal
  /-- An instruction with no meaning in the model. No arm of `exec` answers this: all 19 have their meaning. SAFE. -/
  | notModelled (mnemonic : String)
  /-- A `Reset` whose image is not well formed: more than 256 words, or a word that is not 8 bits. The command has no meaning
  and the state is as it was (R301, U4). Raised by `Command.run` only. SAFE. -/
  | illFormedImage
deriving DecidableEq, Repr

/-- The lifecycle (R52): `running` stands for the source's Loaded and Stepping (C7). `halted` keeps the fault record until
the next `Reset` (R275). -/
inductive Mode
  | unloaded
  | running
  | halted (f : Fault)
deriving DecidableEq, Repr

/-- The four general registers (R31). -/
structure RegFile where
  r0 : Byte
  r1 : Byte
  r2 : Byte
  r3 : Byte
deriving DecidableEq, Repr

/-- Data memory as its listed bytes, addresses rising and no listed byte 0: an address that is not listed reads 0, which
is its reset contents (R47). -/
abbrev Memory := List Host.Cell

/-- The whole state of one core (R30, R54). `PLEN` and `ILEN` are the lengths of `prog` and `inbuf` (`State.plen`,
`State.ilen`). While the mode is `unloaded` the other fields may be anything (R53). -/
structure State where
  /-- `R[0..3]` (R31). -/
  regs : RegFile
  /-- `F`: V is bit 0, C bit 1, Z bit 2, N bit 3 (R35). -/
  flags : BitVec 4
  /-- `LNK` (R41). -/
  lnk : Byte
  /-- The index of the next opcode word, 0..256 (R43); the bound is part of `State.Inv`. -/
  pc : Nat
  /-- `MEM` (R47). -/
  mem : Memory
  /-- `PROG` (R48). -/
  prog : List Byte
  /-- `INBUF` (R49). -/
  inbuf : List Byte
  /-- `ICUR` (R49). -/
  icur : Nat
  /-- `OUTBUF`, oldest byte first (R51). -/
  outbuf : List Byte
  /-- `MODE` (R52). -/
  mode : Mode
deriving DecidableEq, Repr

/-- The state after `Reset(P, I)` (R56): everything cleared, the program and the input loaded. -/
def State.loaded (P I : List Byte) : State :=
  { regs := ⟨0#8, 0#8, 0#8, 0#8⟩, flags := 0#4, lnk := 0#8, pc := 0, mem := [], prog := P, inbuf := I, icur := 0,
    outbuf := [], mode := .running }

/-- The machine right after reset, with the empty program and the empty input: `Reset([], [])` (log 2). A program is loaded
by the command `Reset(P, I)` (`Command.run`), which leaves `State.loaded P I`. -/
def State.reset : State := State.loaded [] []

end Sys2Proof.Machine
end

