-- ==== Sys2Proof/Machine/Ops.lean ====
section
/-! DEFINITION. The named operations over registers, memories, ports and the program counter, and the raising of a fault. -/

namespace Sys2Proof.Machine

/-! ## General registers (R31) -/

def RegFile.get (f : RegFile) : Reg → Byte
  | .r0 => f.r0
  | .r1 => f.r1
  | .r2 => f.r2
  | .r3 => f.r3

def RegFile.set (f : RegFile) (r : Reg) (v : Byte) : RegFile :=
  match r with
  | .r0 => { f with r0 := v }
  | .r1 => { f with r1 := v }
  | .r2 => { f with r2 := v }
  | .r3 => { f with r3 := v }

/-- `R[r]` (R17). -/
def State.reg (s : State) (r : Reg) : Byte := s.regs.get r

/-- `R[r] <- v` (R17). -/
def State.setReg (s : State) (r : Reg) (v : Byte) : State := { s with regs := s.regs.set r v }

/-! ## Data memory (R47, R60 to R63) -/

/-- The byte at an address: 0 when it is not listed, the reset contents (R47). -/
def Memory.read : Memory → Nat → Byte
  | [], _ => 0#8
  | (k, v) :: m, a => if k = a then v else Memory.read m a

/-- No byte listed at an address. -/
def Memory.erase (m : Memory) (a : Nat) : Memory := m.filter fun cell => cell.1 ≠ a

/-- A byte listed in its place, before the first greater address. -/
def Memory.insert : Memory → Nat → Byte → Memory
  | [], a, v => [(a, v)]
  | (k, x) :: m, a, v => if a < k then (a, v) :: (k, x) :: m else (k, x) :: Memory.insert m a v

/-- Store a byte and keep the canonical form: an address whose byte is 0 is not listed. -/
def Memory.write (m : Memory) (a : Nat) (v : Byte) : Memory :=
  if v = 0#8 then m.erase a else (m.erase a).insert a v

/-- Addresses strictly rising from `lo` on and below 256, no listed byte 0. -/
def Memory.wfFrom : Nat → Memory → Bool
  | _, [] => true
  | lo, (k, v) :: m => decide (lo ≤ k) && decide (k < Config.memSize) && decide (v ≠ 0#8) && Memory.wfFrom (k + 1) m

/-- The canonical form of data memory. Equal contents are equal lists. -/
def Memory.wf (m : Memory) : Bool := Memory.wfFrom 0 m

/-- `MemRead(addr, 1)` (R63). An 8-bit address always exists (R61). -/
def State.memRead (s : State) (a : Byte) : Byte := s.mem.read a.toNat

/-- `MemWrite(addr, 1, v)` (R63). -/
def State.memWrite (s : State) (a v : Byte) : State := { s with mem := s.mem.write a.toNat v }

/-! ## Program memory and the program counter (R43, R48) -/

/-- `PLEN`, the number of program words (R48, R56). -/
def State.plen (s : State) : Nat := s.prog.length

/-- `ProgRead(a)`, none when the word is absent (R17, R141). -/
def State.progRead (s : State) (a : Nat) : Option Byte := s.prog[a]?

/-- `pc <- target` (R17). -/
def State.setPc (s : State) (a : Nat) : State := { s with pc := a }

/-- `SeqNext`: `pc + 1` with no modulo (R19). -/
def State.seqNext (s : State) : Nat := s.pc + 1

/-- `WrapNext`: `(pc + 1) mod PLEN` (R19). Whenever an instruction executes `PLEN >= 1` (R146). -/
def State.wrapNext (s : State) : Nat := (s.pc + 1) % s.plen

/-- The default control flow `pc <- pc + 1` (R145). -/
def State.advance (s : State) : State := s.setPc s.seqNext

/-- `LNK <- (pc + 1) mod PLEN` (R202). With `PLEN <= 256` the value fits the 8 bits (R41, C6). -/
def State.saveLink (s : State) : State := { s with lnk := BitVec.ofNat 8 s.wrapNext }

/-- `pc <- R[r]`, absolute and with no modulo (R201, R205). -/
def State.jumpReg (s : State) (r : Reg) : State := s.setPc (s.reg r).toNat

/-! ## Ports (R49 to R51) -/

/-- `ILEN`, the number of input bytes (R49). -/
def State.ilen (s : State) : Nat := s.inbuf.length

/-- The byte `InRead()` returns: the next input byte, or 0 when the input is exhausted (R230). -/
def State.inByte (s : State) : Byte := s.inbuf.getD s.icur 0#8

/-- The cursor advances on every `in`, also on an exhausted one (R230; the spec's decision D11). -/
def State.inAdvance (s : State) : State := { s with icur := s.icur + 1 }

/-- `OutWrite(v)`: append one byte, with no limit (R231, R51). -/
def State.outWrite (s : State) (v : Byte) : State := { s with outbuf := s.outbuf ++ [v] }

/-! ## Raising a fault (R141, R275, R276, R280) -/

/-- `MODE <- m`. -/
def State.setMode (s : State) (m : Mode) : State := { s with mode := m }

/-- `raise OutOfProgram(addr)`: the step ends, the core halts with the record, and nothing else is written. There is no
handler and nothing to return to (R280, R281). -/
def raiseOutOfProgram (addr : Nat) (s : State) : Host.Outcome State Fault Refusal :=
  .next (s.setMode (.halted (.outOfProgram addr)))

end Sys2Proof.Machine
end

