-- ==== Sys2Proof/Machine/Flags.lean ====
section
/-! DEFINITION. The flag register's bits and every flag computation of the spec (R18, R35 to R38, R162 to R171). -/

namespace Sys2Proof.Machine

/-- The bit of `F` a flag stands in (R35, R36). -/
def flagBit : Cond → Nat
  | .v => 0
  | .c => 1
  | .z => 2
  | .n => 3

/-- `F.x`, and the condition `Cond(cnd) = F[cnd]` (R36). -/
def State.flag (s : State) (cnd : Cond) : Bool := s.flags.getLsbD (flagBit cnd)

/-- A flag register with one bit given and the others kept (R144). -/
def putFlag (f : BitVec 4) (cnd : Cond) (b : Bool) : BitVec 4 :=
  (f &&& ~~~(1#4 <<< flagBit cnd)) ||| (if b then 1#4 <<< flagBit cnd else 0#4)

/-- `F.x <- b` (R17). -/
def State.setFlag (s : State) (cnd : Cond) (b : Bool) : State := { s with flags := putFlag s.flags cnd b }

/-- `ZF(v)`: the value is 0 (R18; the spec's decision D3). -/
def zf (v : Byte) : Bool := decide (v.toNat = 0)

/-- `NF(v) = v[7]` (R18; the spec's decision D2). -/
def nf (v : Byte) : Bool := v.getLsbD 7

/-- The carry of `add`: the unbounded sum exceeds 255 (R170). -/
def addCarry (a b : Byte) : Bool := decide (a.toNat + b.toNat > 255)

/-- The borrow of `sub`: the unbounded difference is negative (R171). -/
def subBorrow (a b : Byte) : Bool := decide ((a.toNat : Int) - b.toNat < 0)

/-- The C of `dec`: the result is 255 (R163). -/
def decCarry (res : Byte) : Bool := decide (res.toNat = 255)

/-- Write Z and N and nothing else (R144). -/
def State.setZN (s : State) (zero neg : Bool) : State := (s.setFlag .z zero).setFlag .n neg

/-- Write Z, N and C and nothing else (R144). -/
def State.setZNC (s : State) (zero neg carry : Bool) : State := (s.setZN zero neg).setFlag .c carry

end Sys2Proof.Machine
end

