-- ==== Sys2Proof/Machine/Operands.lean ====
section
/-! DEFINITION. Operand forms: the effective address, the register after a register, and the 8-bit results. -/

namespace Sys2Proof.Machine

/-- The effective address `(base - ofs) mod 256` of `ld` and `st`: the offset is subtracted (R250). -/
def effAddr (base : Byte) (ofs : Offset) : Byte := BitVec.ofInt 8 ((base.toNat : Int) - ofs.toNat)

/-- `(r + 1) mod 4`, the destination of `and` (R166). -/
def nextReg (r : Reg) : Reg := Reg.ofBits (BitVec.ofNat 2 ((r.toBits.toNat + 1) % 4))

/-- `(v + 1) mod 256` (R162). -/
def incRes (v : Byte) : Byte := BitVec.ofNat 8 ((v.toNat + 1) % 256)

/-- `(v + 255) mod 256` (R163). -/
def decRes (v : Byte) : Byte := BitVec.ofNat 8 ((v.toNat + 255) % 256)

/-- `(v * 2) mod 256` (R164). -/
def lshftRes (v : Byte) : Byte := BitVec.ofNat 8 (v.toNat * 2 % 256)

/-- `floor(v / 2)` (R165). -/
def rshftRes (v : Byte) : Byte := BitVec.ofNat 8 (v.toNat / 2)

/-- The sum mod 256 (R170). -/
def addRes (a b : Byte) : Byte := BitVec.ofNat 8 ((a.toNat + b.toNat) % 256)

/-- The difference mod 256 (R171). -/
def subRes (a b : Byte) : Byte := BitVec.ofInt 8 (((a.toNat : Int) - b.toNat + 256) % 256)

end Sys2Proof.Machine
end

