-- ==== Sys2Proof/Machine/Alu.lean ====
section
/-! DEFINITION. The register and ALU instructions (spec/41_register_alu.md): nop, inc, dec, lshft, rshft, and, set, mv, add,
sub. -/

namespace Sys2Proof.Machine

/-- `nop`: only the pc changes and the register field is ignored (R161). -/
def execNop (_r : Reg) (s : State) : Host.Outcome State Fault Refusal := .next s.advance

/-- `inc r`; C mirrors Z (R162, C5). -/
def execInc (r : Reg) (s : State) : Host.Outcome State Fault Refusal :=
  let res := incRes (s.reg r)
  .next ((s.setReg r res).setZNC (zf res) (nf res) (zf res)).advance

/-- `dec r` (R163). -/
def execDec (r : Reg) (s : State) : Host.Outcome State Fault Refusal :=
  let res := decRes (s.reg r)
  .next ((s.setReg r res).setZNC (zf res) (nf res) (decCarry res)).advance

/-- `lshft r`; C is not written (R164). -/
def execLshft (r : Reg) (s : State) : Host.Outcome State Fault Refusal :=
  let res := lshftRes (s.reg r)
  .next ((s.setReg r res).setZN (zf res) (nf res)).advance

/-- `rshft r`; C is not written (R165). -/
def execRshft (r : Reg) (s : State) : Host.Outcome State Fault Refusal :=
  let res := rshftRes (s.reg r)
  .next ((s.setReg r res).setZN (zf res) (nf res)).advance

/-- `and r`: the register after `r` receives the AND, and N is that of the source `R[r]` (R166). -/
def execAnd (r : Reg) (s : State) : Host.Outcome State Fault Refusal :=
  let src := s.reg r
  let res := src &&& s.reg (nextReg r)
  .next ((s.setReg (nextReg r) res).setZN (zf res) (nf src)).advance

/-- `set r, imm`: the data word is the program word after the opcode word (R167), and its absence is a fault (R168). -/
def execSet (r : Reg) (s : State) : Host.Outcome State Fault Refusal :=
  match s.progRead (s.pc + 1) with
  | none => raiseOutOfProgram (s.pc + 1) s
  | some v => .next ((s.setReg r v).setPc (s.pc + 2))

/-- `mv rd, rs` (R169). -/
def execMv (rd rs : Reg) (s : State) : Host.Outcome State Fault Refusal := .next (s.setReg rd (s.reg rs)).advance

/-- `add rd, rs` (R170). -/
def execAdd (rd rs : Reg) (s : State) : Host.Outcome State Fault Refusal :=
  let res := addRes (s.reg rd) (s.reg rs)
  .next ((s.setReg rd res).setZNC (zf res) (nf res) (addCarry (s.reg rd) (s.reg rs))).advance

/-- `sub rd, rs` (R171). -/
def execSub (rd rs : Reg) (s : State) : Host.Outcome State Fault Refusal :=
  let res := subRes (s.reg rd) (s.reg rs)
  .next ((s.setReg rd res).setZNC (zf res) (nf res) (subBorrow (s.reg rd) (s.reg rs))).advance

end Sys2Proof.Machine
end

