-- ==== Sys2Proof/Machine/Control.lean ====
section
/-! DEFINITION. The link and control-transfer instructions (spec/42_control_transfer.md): mvlnk, j, jlnk, jcnd, jlnkcnd. -/

namespace Sys2Proof.Machine

/-- `mvlnk r` (R200). -/
def execMvlnk (r : Reg) (s : State) : Host.Outcome State Fault Refusal := .next (s.setReg r s.lnk).advance

/-- `j r` (R201). -/
def execJ (r : Reg) (s : State) : Host.Outcome State Fault Refusal := .next (s.jumpReg r)

/-- `jlnk r` (R202). -/
def execJlnk (r : Reg) (s : State) : Host.Outcome State Fault Refusal := .next (s.saveLink.jumpReg r)

/-- `jcnd cnd, r`: not taken, the pc wraps mod PLEN (R203). -/
def execJcnd (cnd : Cond) (r : Reg) (s : State) : Host.Outcome State Fault Refusal :=
  .next (if s.flag cnd then s.jumpReg r else s.setPc s.wrapNext)

/-- `jlnkcnd cnd, r`: not taken, LNK is unchanged and the pc wraps mod PLEN (R204). -/
def execJlnkcnd (cnd : Cond) (r : Reg) (s : State) : Host.Outcome State Fault Refusal :=
  .next (if s.flag cnd then s.saveLink.jumpReg r else s.setPc s.wrapNext)

end Sys2Proof.Machine
end

