-- ==== Sys2Proof/Machine/Io.lean ====
section
/-! DEFINITION. The input and output instructions (spec/43_io.md): in, out. -/

namespace Sys2Proof.Machine

/-- `in r`: an exhausted input gives 0 and is no error (R230). -/
def execIn (r : Reg) (s : State) : Host.Outcome State Fault Refusal :=
  .next ((s.inAdvance.setReg r s.inByte).setZN (zf s.inByte) (nf s.inByte)).advance

/-- `out r` (R231). -/
def execOut (r : Reg) (s : State) : Host.Outcome State Fault Refusal := .next (s.outWrite (s.reg r)).advance

end Sys2Proof.Machine
end

