-- ==== Sys2Proof/Machine/LoadStore.lean ====
section
/-! DEFINITION. The load and store instructions (spec/44_load_store.md): ld, st. -/

namespace Sys2Proof.Machine

/-- `ld rd, ofs[rb]`: the address is taken from the old base, also when `rd = rb` (R251). -/
def execLd (ofs : Offset) (rd rb : Reg) (s : State) : Host.Outcome State Fault Refusal :=
  let v := s.memRead (effAddr (s.reg rb) ofs)
  .next ((s.setReg rd v).setZN (zf v) (nf v)).advance

/-- `st rs, ofs[rb]` (R252). -/
def execSt (ofs : Offset) (rs rb : Reg) (s : State) : Host.Outcome State Fault Refusal :=
  .next (s.memWrite (effAddr (s.reg rb) ofs) (s.reg rs)).advance

end Sys2Proof.Machine
end

