-- ==== Sys2Proof/Machine/Dispatch.lean ====
section
/-! DEFINITION. `Execute(i)`: each instruction term runs its own rule (R140). -/

namespace Sys2Proof.Machine

def exec (i : Instr) (s : State) : Host.Outcome State Fault Refusal :=
  match i with
  | .nop r => Sys2Proof.Machine.execNop r s
  | .inc r => Sys2Proof.Machine.execInc r s
  | .dec r => Sys2Proof.Machine.execDec r s
  | .mvlnk r => Sys2Proof.Machine.execMvlnk r s
  | .j r => Sys2Proof.Machine.execJ r s
  | .jlnk r => Sys2Proof.Machine.execJlnk r s
  | .inp r => Sys2Proof.Machine.execIn r s
  | .out r => Sys2Proof.Machine.execOut r s
  | .lshft r => Sys2Proof.Machine.execLshft r s
  | .rshft r => Sys2Proof.Machine.execRshft r s
  | .and r => Sys2Proof.Machine.execAnd r s
  | .set r => Sys2Proof.Machine.execSet r s
  | .mv rd rs => Sys2Proof.Machine.execMv rd rs s
  | .add rd rs => Sys2Proof.Machine.execAdd rd rs s
  | .sub rd rs => Sys2Proof.Machine.execSub rd rs s
  | .jcnd cnd r => Sys2Proof.Machine.execJcnd cnd r s
  | .jlnkcnd cnd r => Sys2Proof.Machine.execJlnkcnd cnd r s
  | .ld ofs rd rb => Sys2Proof.Machine.execLd ofs rd rb s
  | .st ofs rs rb => Sys2Proof.Machine.execSt ofs rs rb s

end Sys2Proof.Machine
end

