-- ==== Sys2Proof/Machine/Fetch.lean ====
section
/-! DEFINITION. Fetching and running one instruction in the running mode, and placing one where it is fetched. -/

namespace Sys2Proof.Machine

/-- The step of a running core: fetch the word at `pc`, decode it whatever it is, execute it (R140 to R142). -/
def runFetched (s : State) : Host.Outcome State Fault Refusal :=
  match s.progRead s.pc with
  | none => raiseOutOfProgram s.pc s
  | some w => exec (decode w) s

/-- The lifecycle check and the step, in the order of R277. A halted core changes nothing and its mode still tells the
recorded fault (R148; log 1). -/
def stepMode (s : State) : Host.Outcome State Fault Refusal :=
  match s.mode with
  | .unloaded => .fault .notLoaded
  | .halted _ => .next s
  | .running => runFetched s

/-- A program with the words `ws` from slot `a` on: slots that did not exist before `a` hold 0, and nothing is placed beyond
slot 255, which no program has (R48). -/
def overlay (p : List Byte) (a : Nat) (ws : List Byte) : List Byte :=
  (p.take a ++ List.replicate (a - p.length) 0#8 ++ ws ++ p.drop (a + ws.length)).take Config.maxProgram

end Sys2Proof.Machine
end

