-- ==== Sys2Proof/Machine/Step.lean ====
section
/-! DEFINITION. One `Step()` of the core (R140), and a state with an instruction placed where the next step fetches it. -/

namespace Sys2Proof.Machine

/-- `Step()` (R140). -/
def step (s : State) : Host.Outcome State Fault Refusal := stepMode s

/-- `s` with the instruction of a table word at `pc`, running. It stands for a `Reset` whose image holds those words
(log 2). -/
def State.withFetchWord (s : State) (nbits w : Nat) : State :=
  { s with prog := overlay s.prog s.pc (tableBytes nbits w), mode := .running }

end Sys2Proof.Machine
end

