-- ==== Sys2Proof/Machine/Assembler.lean ====
section
/-! DEFINITION. The toolchain's assembler (R110 to R126): outside the block, given because programs are written in it. Text is
a list of characters, a line has no line break. -/

namespace Sys2Proof.Asm

/-- The errors of one line (R120). `arityMismatch` names the opcode (R117), in its folded spelling (DESIGN CHOICE, log 6). -/
inductive ParseError
  | invalidRegister
  | invalidCondition
  | invalidImmediate
  | invalidAddressSyntax
  | arityMismatch (mnemonic : List Char)
  | unknownInstruction
deriving DecidableEq, Repr

/-- The errors of assembling parsed entries. `unresolvedLabel` is R122, `duplicateLabel` R124 (the spec's decision D19).
`labelOutOfRange` is a label whose slot does not fit the 8-bit literal (log 6). -/
inductive AssembleError
  | unresolvedLabel (name : List Char)
  | duplicateLabel (name : List Char)
  | labelOutOfRange (name : List Char)
deriving DecidableEq, Repr

/-- The immediate of a `set` line: a literal or a label reference (R115, R119). -/
inductive Imm
  | lit (v : Byte)
  | label (name : List Char)
deriving DecidableEq, Repr

/-- A parsed entry: an instruction, the immediate that follows a `set`, or a label definition (R111, R119). -/
inductive Entry
  | instr (i : Instr)
  | imm (m : Imm)
  | labelDef (name : List Char)
deriving DecidableEq, Repr

/-! ## Characters and tokens -/

def isWs (ch : Char) : Bool := ch == ' ' || ch == '\t' || ch == '\r' || ch == '\n'

def trim (t : List Char) : List Char := ((t.dropWhile isWs).reverse.dropWhile isWs).reverse

/-- Case folding of the tokens R125 calls case-insensitive. Only the letters A to Z are folded: the spec does not say what
folding does to a character outside ASCII, and that such a one stays as it is (so the Kelvin sign is no k) is the model's
choice (DESIGN CHOICE, log 6). -/
def lower (t : List Char) : List Char := t.map Char.toLower

/-- The value of a digit in a base up to 16, either case of the letters a to f (R125, D17). -/
def digit? (base : Nat) (ch : Char) : Option Nat :=
  let n := ch.toLower.toNat
  let v := if 48 ≤ n ∧ n ≤ 57 then some (n - 48) else if 97 ≤ n ∧ n ≤ 102 then some (n - 87) else none
  v.bind fun d => if d < base then some d else none

def isDecDigit (ch : Char) : Bool := (digit? 10 ch).isSome

def digitsFrom (base : Nat) : Nat → List Char → Option Nat
  | acc, [] => some acc
  | acc, ch :: t => (digit? base ch).bind fun d => digitsFrom base (base * acc + d) t

/-- One or more digits in a base. -/
def number? (base : Nat) (t : List Char) : Option Nat := if t.isEmpty then none else digitsFrom base 0 t

/-- The remainder of an instruction line split on commas, where a quoted one-character literal is not split (R112). That such
a literal counts also inside an operand, not only as the whole of it, is the model's choice (DESIGN CHOICE, log 6). -/
def splitCommas : List Char → List Char → List (List Char)
  | [], acc => [acc.reverse]
  | '\'' :: ch :: '\'' :: t, acc => splitCommas t ('\'' :: ch :: '\'' :: acc)
  | ch :: t, acc => if ch = ',' then acc.reverse :: splitCommas t [] else splitCommas t (ch :: acc)

/-- The operands of a line: none when the remainder is empty, else split and trimmed (R112). -/
def operands (t : List Char) : List (List Char) :=
  if (trim t).isEmpty then [] else (splitCommas t []).map trim

/-! ## Operands (R113 to R116) -/

def parseReg (t : List Char) : Except ParseError Reg :=
  match lower t with
  | ['r', '0'] | ['a'] | ['0', '0'] => .ok .r0
  | ['r', '1'] | ['b'] | ['0', '1'] => .ok .r1
  | ['r', '2'] | ['c'] | ['1', '0'] | ['f', 'p'] => .ok .r2
  | ['r', '3'] | ['d'] | ['1', '1'] | ['s', 'p'] => .ok .r3
  | _ => .error .invalidRegister

def parseCond (t : List Char) : Except ParseError Cond :=
  match lower t with
  | ['v'] | ['0', '0'] => .ok .v
  | ['c'] | ['0', '1'] => .ok .c
  | ['z'] | ['1', '0'] => .ok .z
  | ['n'] | ['1', '1'] => .ok .n
  | _ => .error .invalidCondition

/-- Form 2 of R115: a radix mark in front. -/
def leadingRadix? (t : List Char) : Option Nat :=
  match lower t with
  | '0' :: 'x' :: ds => number? 16 ds
  | '0' :: 'b' :: ds => number? 2 ds
  | '0' :: 'o' :: ds => number? 8 ds
  | _ => none

/-- Form 3 of R115: a radix mark behind; a hexadecimal number starts with a decimal digit. -/
def trailingRadix? (t : List Char) : Option Nat :=
  match (lower t).reverse with
  | 'h' :: ds => if (ds.reverse.head?.map isDecDigit).getD false then number? 16 ds.reverse else none
  | 'b' :: ds => number? 2 ds.reverse
  | 'o' :: ds => number? 8 ds.reverse
  | _ => none

/-- Form 4 of R115: decimal with an optional minus sign, octal with a leading 0 and no sign. -/
def decimal? (t : List Char) : Option Int :=
  match t with
  | '-' :: ds => (number? 10 ds).map fun n => -(n : Int)
  | '0' :: d :: ds => (number? 8 (d :: ds)).map fun n => (n : Int)
  | ds => (number? 10 ds).map fun n => (n : Int)

/-- The numeric forms of R115, in its order. -/
def numeric? (t : List Char) : Option Int :=
  match t with
  | ['\'', ch, '\''] => some (ch.toNat : Int)
  | _ =>
    match leadingRadix? t with
    | some n => some (n : Int)
    | none =>
      match trailingRadix? t with
      | some n => some (n : Int)
      | none => decimal? t

/-- The immediate of `set` (R115). A value outside 0..255 is refused (D15); an empty token is refused (log 6). -/
def parseImm (t : List Char) : Except ParseError Imm :=
  match numeric? t with
  | some v => if 0 ≤ v ∧ v ≤ 255 then .ok (.lit (BitVec.ofInt 8 v)) else .error .invalidImmediate
  | none =>
    match t with
    | [] => .error .invalidImmediate
    | ch :: _ => if isDecDigit ch || ch == '-' then .error .invalidImmediate else .ok (.label t)

/-- The memory operand `<unsigned-int>[<register>]`; the offset is decimal and 0..3 (R116, D16). The spec orders the operands
of a line (D31) but not the checks inside one operand: that an offset above 3 is reported before a bad register, as
`InvalidAddressSyntax`, is the model's choice (DESIGN CHOICE, log 6). -/
def parseMem (t : List Char) : Except ParseError (Offset × Reg) :=
  match number? 10 (t.takeWhile (· ≠ '[')), t.dropWhile (· ≠ '[') with
  | some n, '[' :: rest =>
    match rest.reverse with
    | ']' :: inner =>
      if n ≤ 3 then
        match parseReg inner.reverse with
        | .ok r => .ok (BitVec.ofNat 2 n, r)
        | .error e => .error e
      else .error .invalidAddressSyntax
    | _ => .error .invalidAddressSyntax
  | _, _ => .error .invalidAddressSyntax

/-! ## Lines (R111, R112, R117 to R119) -/

/-- The mnemonics that take one register. -/
def regOp? (m : List Char) : Option (Reg → Instr) :=
  match m with
  | ['i', 'n', 'c'] => some .inc
  | ['d', 'e', 'c'] => some .dec
  | ['m', 'v', 'l', 'n', 'k'] => some .mvlnk
  | ['j'] => some .j
  | ['j', 'l', 'n', 'k'] => some .jlnk
  | ['i', 'n'] => some .inp
  | ['o', 'u', 't'] => some .out
  | ['l', 's', 'h', 'f', 't'] => some .lshft
  | ['r', 's', 'h', 'f', 't'] => some .rshft
  | ['a', 'n', 'd'] => some .and
  | _ => none

/-- The mnemonics that take two operands, with the parser of each operand pair, left to right (R118, D14). -/
def pairOp? (m : List Char) : Option (List Char → List Char → Except ParseError (List Entry)) :=
  let regReg (f : Reg → Reg → Instr) (x y : List Char) : Except ParseError (List Entry) := do
    let rd ← parseReg x
    let rs ← parseReg y
    return [.instr (f rd rs)]
  let condReg (f : Cond → Reg → Instr) (x y : List Char) : Except ParseError (List Entry) := do
    let cnd ← parseCond x
    let r ← parseReg y
    return [.instr (f cnd r)]
  let regMem (f : Offset → Reg → Reg → Instr) (x y : List Char) : Except ParseError (List Entry) := do
    let rd ← parseReg x
    let (ofs, rb) ← parseMem y
    return [.instr (f ofs rd rb)]
  let regImm (x y : List Char) : Except ParseError (List Entry) := do
    let r ← parseReg x
    let v ← parseImm y
    return [.instr (.set r), .imm v]
  match m with
  | ['s', 'e', 't'] => some regImm
  | ['m', 'v'] => some (regReg .mv)
  | ['a', 'd', 'd'] => some (regReg .add)
  | ['s', 'u', 'b'] => some (regReg .sub)
  | ['j', 'c', 'n', 'd'] => some (condReg .jcnd)
  | ['j', 'l', 'n', 'k', 'c', 'n', 'd'] => some (condReg .jlnkcnd)
  | ['l', 'd'] => some (regMem .ld)
  | ['s', 't'] => some (regMem .st)
  | _ => none

/-- An instruction with its operands: mnemonic, then arity, then operands left to right (R117, D31). -/
def parseInstr (m : List Char) (ops : List (List Char)) : Except ParseError (List Entry) :=
  if m = ['n', 'o', 'p'] then
    match ops with
    | [] => .ok [.instr (.nop .r0)]
    | _ => .error (.arityMismatch m)
  else
    match regOp? m with
    | some f =>
      match ops with
      | [x] =>
        match parseReg x with
        | .ok r => .ok [.instr (f r)]
        | .error e => .error e
      | _ => .error (.arityMismatch m)
    | none =>
      match pairOp? m with
      | some f =>
        match ops with
        | [x, y] => f x y
        | _ => .error (.arityMismatch m)
      | none => .error .unknownInstruction

/-- The name of a label-definition line: the text before a final `:`, trimmed, not empty (R111, D20). -/
def labelName? (t : List Char) : Option (List Char) :=
  match t.reverse with
  | ':' :: name => if (trim name.reverse).isEmpty then none else some (trim name.reverse)
  | _ => none

/-- One source line (R111). -/
def parseLine (line : List Char) : Except ParseError (List Entry) :=
  let t := trim line
  match t with
  | [] => .ok []
  | ';' :: _ => .ok []
  | _ =>
    match labelName? t with
    | some name => .ok [.labelDef name]
    | none => parseInstr (lower (t.takeWhile fun ch => !isWs ch)) (operands (t.dropWhile fun ch => !isWs ch))

/-- Every line parsed on its own: one line's error hides no other's (R120). That an error carries its line's number, counted
from 0, is the model's choice (DESIGN CHOICE, log 6). -/
def parseLines : Nat → List (List Char) → List Entry × List (Nat × ParseError)
  | _, [] => ([], [])
  | n, l :: rest =>
    let (es, errs) := parseLines (n + 1) rest
    match parseLine l with
    | .ok e => (e ++ es, errs)
    | .error x => (es, (n, x) :: errs)

/-! ## Assembly (R121 to R124) -/

/-- Pass 1: the slot of every label; a label definition consumes no slot (R121). -/
def labels : Nat → List Entry → List (List Char × Nat)
  | _, [] => []
  | n, .labelDef name :: rest => (name, n) :: labels n rest
  | n, .instr _ :: rest => labels (n + 1) rest
  | n, .imm _ :: rest => labels (n + 1) rest

/-- The slot of a label in the table of pass 1. -/
def slot? (table : List (List Char × Nat)) (name : List Char) : Option Nat :=
  match table with
  | [] => none
  | (k, n) :: rest => if k = name then some n else slot? rest name

/-- A name defined twice, if there is one: the first such name in entry order (R124; DESIGN CHOICE, log 6). -/
def duplicate? : List (List Char × Nat) → Option (List Char)
  | [] => none
  | (k, _) :: rest => if (slot? rest k).isSome then some k else duplicate? rest

/-- Pass 2: label references replaced by their slots, label definitions dropped (R122, R123). Of several references that
fail, the first in entry order is reported, an order the spec does not give (DESIGN CHOICE, log 6). -/
def resolve (table : List (List Char × Nat)) : List Entry → Except AssembleError (List ProgEntry)
  | [] => .ok []
  | .labelDef _ :: rest => resolve table rest
  | .instr i :: rest =>
    match resolve table rest with
    | .ok p => .ok (.instr i :: p)
    | .error e => .error e
  | .imm (.lit v) :: rest =>
    match resolve table rest with
    | .ok p => .ok (.imm v :: p)
    | .error e => .error e
  | .imm (.label name) :: rest =>
    match slot? table name with
    | none => .error (.unresolvedLabel name)
    | some n =>
      if n ≤ 255 then
        match resolve table rest with
        | .ok p => .ok (.imm (BitVec.ofNat 8 n) :: p)
        | .error e => .error e
      else .error (.labelOutOfRange name)

/-- Both passes over parsed entries: a name defined twice is refused, an unresolved one aborts the whole (R121 to R124). The
spec gives these checks no order (D31 orders only those within a line): that a duplicate is reported before an unresolved
name is the model's choice (DESIGN CHOICE, log 6). -/
def assemble (es : List Entry) : Except AssembleError (List ProgEntry) :=
  match duplicate? (labels 0 es) with
  | some name => .error (.duplicateLabel name)
  | none => resolve (labels 0 es) es

/-- Why a program is not assembled: the errors of its lines, or the error of its assembly (R120, R122). -/
inductive ToolError
  | lines (errs : List (Nat × ParseError))
  | assembly (e : AssembleError)
deriving DecidableEq, Repr

/-- The whole toolchain: source lines to the words `Reset` takes (R110, R123). -/
def assembleText (source : List (List Char)) : Except ToolError (List Byte) :=
  match parseLines 0 source with
  | (es, []) =>
    match assemble es with
    | .ok p => .ok (p.map ProgEntry.word)
    | .error e => .error (.assembly e)
  | (_, errs) => .error (.lines errs)

end Sys2Proof.Asm
end

