-- ==== Sys2Proof/Machine/Commands.lean ====
section
/-! DEFINITION. The host's interface to the core: the commands `Reset(P, I)` and `Step()` with what they report, and the
query (R10 to R13, R290). -/

namespace Sys2Proof.Machine

/-- The two commands, and nothing else (R10). An image is given as word strings, since the interface refuses a word that is
not 8 bits (R273, R301). -/
inductive Command
  | reset (image : List BitString) (input : List Byte)
  | step
deriving DecidableEq, Repr

/-- What a command leaves and reports: the state after it, and the fault it reports, if any (R147, R148, R275). -/
structure Response where
  state : State
  report : Option Fault
deriving DecidableEq, Repr

/-- The fault a mode records (R52, R275). -/
def Mode.recorded : Mode → Option Fault
  | .unloaded => none
  | .running => none
  | .halted f => some f

/-- `Reset(P, I)`: total reinitialisation from any state; an ill-formed image is refused (R300 to R305). -/
def resetCommand (image : List BitString) (input : List Byte) : Host.Outcome Response Fault Refusal :=
  if Image.wf image then
    match imageWords image with
    | .ok ws => .next ⟨State.loaded ws input, none⟩
    | .error _ => .refused .illFormedImage
  else .refused .illFormedImage

/-- `Step()` as the host sees it. A step that halts, and every step of a halted core, reports the recorded fault (R148,
R275); a step before the first `Reset` reports `NotLoaded` and writes nothing (R147, R274). -/
def stepCommand (s : State) : Host.Outcome Response Fault Refusal :=
  match step s with
  | .next t => .next ⟨t, t.mode.recorded⟩
  | .fault f => .next ⟨s, some f⟩
  | .refused r => .refused r

/-- One command at a time, each an atomic transition (R12, R13). -/
def Command.run (c : Command) (s : State) : Host.Outcome Response Fault Refusal :=
  match c with
  | .reset image input => resetCommand image input
  | .step => stepCommand s

/-- What the query interface shows (R11). -/
structure Query where
  pc : Nat
  lnk : Byte
  regs : List Byte
  vczn : List Bool
  memory : List Byte
  program : List Byte
  output : List Byte
  consumed : List Byte
  remaining : List Byte
deriving DecidableEq, Repr

/-- The consumed part of the input: `min(ICUR, ILEN)` bytes (R50). -/
def State.consumed (s : State) : List Byte := s.inbuf.take (min s.icur s.ilen)

/-- The remaining part of the input (R50). -/
def State.remaining (s : State) : List Byte := s.inbuf.drop (min s.icur s.ilen)

/-- The full 256-byte data memory, address 0 first (R11). -/
def State.memoryBytes (s : State) : List Byte := (List.range Config.memSize).map s.mem.read

/-- The query: it reads everything and changes nothing (R11). -/
def State.query (s : State) : Query :=
  { pc := s.pc, lnk := s.lnk, regs := [s.reg .r0, s.reg .r1, s.reg .r2, s.reg .r3],
    vczn := [s.flag .v, s.flag .c, s.flag .z, s.flag .n], memory := s.memoryBytes, program := s.prog,
    output := s.outbuf, consumed := s.consumed, remaining := s.remaining }

end Sys2Proof.Machine
end

