-- ==== Sys2Proof/Safety.lean ====
section
/-! DEFINITION. The terms claims are stated in: the state invariant, frames, the spec's tables of what instructions write,
the store log of a run, the states a host can reach, and the slots of an assembled program. -/

namespace Sys2Proof.Machine

/-! ## The invariant of every loaded core -/

/-- What holds of the core from `Reset` on (R37, R47, R48, R149, R205, R289). -/
structure State.Inv (s : State) : Prop where
  /-- Data memory is canonical, so it has 256 bytes (R47). -/
  mem : s.mem.wf = true
  /-- The program has at most 256 words (R48). -/
  prog : s.plen ≤ 256
  /-- The pc is a 9-bit number up to 256 (R43, R149). -/
  pc : s.pc ≤ 256
  /-- V is 0 at all times (R37). -/
  overflow : s.flag .v = false
  /-- LNK holds its reset value or a slot of the program (R205). -/
  link : s.lnk = 0#8 ∨ s.lnk.toNat < s.plen
  /-- A halted core ran out of its program (R275, R289). -/
  halted : ∀ f, s.mode = .halted f → ∃ a, f = .outOfProgram a ∧ s.plen ≤ a ∧ a ≤ 256

/-! ## Frames -/

/-- Every register outside `ds` is unchanged. -/
def SameRegsBut (ds : List Reg) (s t : State) : Prop := ∀ q, q ∉ ds → t.reg q = s.reg q

/-- Every flag outside `cs` is unchanged. -/
def SameFlagsBut (cs : List Cond) (s t : State) : Prop := ∀ x, x ∉ cs → t.flag x = s.flag x

/-- Every byte of data memory is unchanged. -/
def SameMemory (s t : State) : Prop := ∀ a, t.memRead a = s.memRead a

/-- Program, input and mode are unchanged. -/
def SameLaunch (s t : State) : Prop := t.prog = s.prog ∧ t.inbuf = s.inbuf ∧ t.mode = s.mode

/-- The ports' own state is unchanged: cursor and output. -/
def SamePorts (s t : State) : Prop := t.icur = s.icur ∧ t.outbuf = s.outbuf

/-- The frame of an instruction that writes only registers in `ds`, flags in `cs` and the pc. -/
def RegisterFrame (ds : List Reg) (cs : List Cond) (s t : State) : Prop :=
  SameRegsBut ds s t ∧ SameFlagsBut cs s t ∧ t.lnk = s.lnk ∧ SameMemory s t ∧ SamePorts s t ∧ SameLaunch s t

/-! ## The spec's tables -/

/-- The register an instruction writes (R33). -/
def writtenReg : Instr → Option Reg
  | .inc r | .dec r | .mvlnk r | .inp r | .lshft r | .rshft r | .set r => some r
  | .mv rd _ | .add rd _ | .sub rd _ | .ld _ rd _ => some rd
  | .and r => some (nextReg r)
  | .nop _ | .j _ | .jlnk _ | .out _ | .jcnd _ _ | .jlnkcnd _ _ | .st _ _ _ => none

/-- The registers an instruction reads (R33). -/
def readRegs : Instr → List Reg
  | .nop _ | .mvlnk _ | .inp _ | .set _ => []
  | .inc r | .dec r | .lshft r | .rshft r | .j r | .jlnk r | .out r | .jcnd _ r | .jlnkcnd _ r => [r]
  | .and r => [r, nextReg r]
  | .mv _ rs => [rs]
  | .add rd rs | .sub rd rs => [rd, rs]
  | .ld _ _ rb => [rb]
  | .st _ rs rb => [rs, rb]

/-- The flags an instruction writes (R38). -/
def writtenFlags : Instr → List Cond
  | .inc _ | .dec _ | .add _ _ | .sub _ _ => [.c, .z, .n]
  | .inp _ | .lshft _ | .rshft _ | .ld _ _ _ | .and _ => [.z, .n]
  | .nop _ | .mvlnk _ | .j _ | .jlnk _ | .out _ | .set _ | .mv _ _ | .jcnd _ _ | .jlnkcnd _ _ | .st _ _ _ => []

/-- The instructions that end with the default advance `pc + 1` (R145). -/
def advancesByOne : Instr → Bool
  | .nop _ | .inc _ | .dec _ | .mvlnk _ | .inp _ | .out _ | .lshft _ | .rshft _ | .and _ => true
  | .mv _ _ | .add _ _ | .sub _ _ | .ld _ _ _ | .st _ _ _ => true
  | .j _ | .jlnk _ | .set _ | .jcnd _ _ | .jlnkcnd _ _ => false

/-- The conditional instructions, which alone read a flag (R36, R39). -/
def readsFlag : Instr → Bool
  | .jcnd _ _ | .jlnkcnd _ _ => true
  | .nop _ | .inc _ | .dec _ | .mvlnk _ | .j _ | .jlnk _ | .inp _ | .out _ | .lshft _ | .rshft _ | .and _ | .set _ => false
  | .mv _ _ | .add _ _ | .sub _ _ | .ld _ _ _ | .st _ _ _ => false

/-! ## Runs -/

/-- The instruction a running core executes at its next step, if its word exists. -/
def State.fetched (s : State) : Option Instr :=
  match s.mode with
  | .running => (s.progRead s.pc).map decode
  | .unloaded => none
  | .halted _ => none

/-- The store the next step makes, as address and value: there is one when it executes an `st` (R252). -/
def State.nextStore (s : State) : Option (Byte × Byte) :=
  match s.fetched with
  | some (.st ofs rs rb) => some (effAddr (s.reg rb) ofs, s.reg rs)
  | _ => none

/-- The stores of the next `n` steps, oldest first. -/
def storeLog : Nat → State → List (Byte × Byte)
  | 0, _ => []
  | n + 1, s =>
    s.nextStore.toList ++
      match step s with
      | .next t => storeLog n t
      | .fault _ => []
      | .refused _ => []

/-- The value a log leaves at an address: that of its last store there, `init` if there was none (R69). -/
def lastStored (log : List (Byte × Byte)) (a : Byte) (init : Byte) : Byte :=
  log.foldl (fun v p => if p.1 = a then p.2 else v) init

/-- The states a host can bring a core to: any state that is unloaded (nothing is said of its other fields, R53), and what
the commands make of a reachable state (R10, R290). -/
inductive Reachable : State → Prop
  | powerOn (s : State) (h : s.mode = .unloaded) : Reachable s
  | command (c : Command) (s : State) (r : Response) (hs : Reachable s) (h : c.run s = .next r) : Reachable r.state

end Sys2Proof.Machine

namespace Sys2Proof.Asm

/-- An entry consumes a slot unless it is a label definition (R121). -/
def takesSlot : Entry → Bool
  | .instr _ => true
  | .imm _ => true
  | .labelDef _ => false

/-- How many slots a list of entries consumes, which is the slot of the entry after it (R121). -/
def slotCount (es : List Entry) : Nat := (es.filter takesSlot).length

end Sys2Proof.Asm
end

