-- ==== Sys2Proof/Certificates/Slice0/Obligations.lean ====
section
/-! DEFINITION. The statements for the provers. Each docstring names the rule of spec/ it formalises. Where a rule writes Z and
N with `ZF` and `NF`, the statement uses the model's `zf` and `nf`, and `Obligations.ZeroAndNegative` alone says what these
compute (the spec's decisions D2 and D3). -/

open Sys2Proof Sys2Proof.Machine

/-! ## The codec -/

/-- R102: decode and encode are mutually inverse on the 256 words and the instruction terms. -/
def Obligations.DecodeEncodeRoundTrip : Prop :=
  (∀ i : Instr, decode (encode i) = i) ∧ (∀ w : Byte, encode (decode w) = w)

/-- The words of 95_test_vectors.md section 2.1, and the worked example of R94, decode to the instructions they stand for. -/
def Obligations.WrittenWordsDecode : Prop :=
  decode 0b00000000#8 = .nop .r0 ∧ decode 0b00000011#8 = .nop .r3 ∧ decode 0b00001111#8 = .mvlnk .r3 ∧
  decode 0b00101100#8 = .set .r0 ∧ decode 0b00101111#8 = .set .r3 ∧ decode 0b00101011#8 = .and .r3 ∧
  decode 0b00110000#8 = .mv .r0 .r0 ∧ decode 0b00111111#8 = .mv .r3 .r3 ∧ decode 0b01000000#8 = .add .r0 .r0 ∧
  decode 0b01011011#8 = .sub .r2 .r3 ∧ decode 0b01101011#8 = .jcnd .z .r3 ∧ decode 0b01111111#8 = .jlnkcnd .n .r3 ∧
  decode 0b10100001#8 = .ld 2#2 .r0 .r1 ∧ decode 0b11100101#8 = .st 2#2 .r1 .r1 ∧ decode 0b11111111#8 = .st 3#2 .r3 .r3

/-- R103 (derived there from R94): the length tells `set` from every other instruction. -/
def Obligations.LengthTellsSet : Prop :=
  ∀ w : Byte, (words w = 2 ∧ ∃ r, decode w = .set r) ∨ (words w = 1 ∧ ∀ r, decode w ≠ .set r)

/-- R105: a word string has exactly 8 characters, bit 7 first, and a wrong length is the only cause of `InvalidEncoding`. -/
def Obligations.WordStringCodec : Prop :=
  (∀ b : BitString, b.length ≠ 8 → decodeString b = .error .invalidEncoding) ∧
  (∀ b : BitString, b.length = 8 → ∃ i, decodeString b = .ok i) ∧
  (∀ i : Instr, (encodeString i).length = 8 ∧ decodeString (encodeString i) = .ok i) ∧
  (∀ (i : Instr) (k : Nat), k < 8 → (encodeString i)[7 - k]? = some ((encode i).getLsbD k))

/-! ## The step and the lifecycle -/

/-- R140: the step of a running core executes the instruction that the word at `pc` decodes to; how the pc moves is part of
the instruction's own rule. -/
def Obligations.StepRunsDecodedInstruction : Prop :=
  (∀ (s : State) (i : Instr), s.mode = .running → s.progRead s.pc = some (encode i) → step s = exec i s) ∧
  (∀ (s : State) (w : Byte), s.mode = .running → s.progRead s.pc = some w → step s = exec (decode w) s)

/-- R141: a fetch at or past the end of the program writes nothing but the mode. -/
def Obligations.FetchPastEndHalts : Prop :=
  ∀ s : State, s.mode = .running → s.plen ≤ s.pc → step s = .next { s with mode := .halted (.outOfProgram s.pc) }

/-- A `set` whose data word is absent changes the mode alone. That it faults is the spec's decision D7 (log 7). -/
def Obligations.SetWithoutDataWordHalts : Prop :=
  ∀ (r : Reg) (s : State), s.plen ≤ s.pc + 1 →
    exec (.set r) s = .next { s with mode := .halted (.outOfProgram (s.pc + 1)) }

/-- A step before the first `Reset` reports `NotLoaded` and writes nothing: the spec's decision D8 (log 7). -/
def Obligations.UnloadedStepFaults : Prop :=
  ∀ s : State, s.mode = .unloaded →
    step s = .fault .notLoaded ∧ Command.step.run s = .next ⟨s, some .notLoaded⟩

/-- Steps of a halted core change nothing and report the recorded fault again, however many there are: the spec's decision
D9 (log 7). That the step answers the unchanged state is how log 1 puts it. -/
def Obligations.HaltedCoreStaysAndReports : Prop :=
  ∀ (s : State) (f : Fault), s.mode = .halted f →
    Command.step.run s = .next ⟨s, some f⟩ ∧ ∀ n : Nat, Host.Core.run core n s = .next s

/-- R143, R276 and R277 (their `set` clause is the decision D7, log 7): a step of a running core always ends, and either
executes the one instruction that the word at `pc` decodes to and stays running, or halts for one of two reasons and
changes only the mode. -/
def Obligations.RunningStepExecutesOrHalts : Prop :=
  ∀ s : State, s.mode = .running → ∃ t : State,
    step s = .next t ∧ Command.step.run s = .next ⟨t, t.mode.recorded⟩ ∧
    ((s.pc < s.plen ∧ t.mode = .running ∧ ∃ w, s.progRead s.pc = some w ∧ exec (decode w) s = .next t) ∨
     (s.plen ≤ s.pc ∧ t = { s with mode := .halted (.outOfProgram s.pc) }) ∨
     (∃ r, s.progRead s.pc = some (encode (.set r)) ∧ s.pc + 1 = s.plen ∧
        t = { s with mode := .halted (.outOfProgram (s.pc + 1)) }))

/-! ## Reset and the query -/

/-- R302 and R56: `Reset` sets every field from any state. The zeros of the registers, flags and LNK are the spec's decision
D23, the bound of 256 words its decision D5 (log 7). -/
def Obligations.ResetReinitialisesEverything : Prop :=
  ∀ (P I : List Byte) (s : State), P.length ≤ 256 → ∃ t : State,
    Command.run (.reset (P.map BitString.ofWord) I) s = .next ⟨t, none⟩ ∧
    (∀ r, t.reg r = 0#8) ∧ t.flags = 0#4 ∧ t.lnk = 0#8 ∧ t.pc = 0 ∧ (∀ a, t.memRead a = 0#8) ∧
    t.prog = P ∧ t.plen = P.length ∧ t.inbuf = I ∧ t.icur = 0 ∧ t.outbuf = [] ∧ t.mode = .running

/-- `Reset` refuses exactly the images of more than 256 words or with a word that is not 8 bits: the spec's decisions D5 and
D22 (log 7). -/
def Obligations.IllFormedImageRefused : Prop :=
  ∀ (p : List BitString) (I : List Byte) (s : State),
    Command.run (.reset p I) s = .refused .illFormedImage ↔ (256 < p.length ∨ ∃ b ∈ p, b.length ≠ 8)

/-- R11: the query shows pc, LNK, each register, flag and memory byte at its own place, the program, the output, and the
consumed and remaining input; it shows neither MODE nor the cursor itself. That the consumed part has `min(ICUR, ILEN)`
bytes is R50, the spec's decision D11 (log 7). -/
def Obligations.QueryShowsTheState : Prop :=
  ∀ s : State,
    s.query.pc = s.pc ∧ s.query.lnk = s.lnk ∧ s.query.program = s.prog ∧ s.query.output = s.outbuf ∧
    (∀ r : Reg, s.query.regs[r.toBits.toNat]? = some (s.reg r)) ∧
    (∀ x : Cond, s.query.vczn[x.toBits.toNat]? = some (s.flag x)) ∧
    s.query.memory.length = 256 ∧ (∀ a : Byte, s.query.memory[a.toNat]? = some (s.memRead a)) ∧
    s.query.consumed ++ s.query.remaining = s.inbuf ∧ s.query.consumed.length = min s.icur s.inbuf.length

/-! ## The invariant -/

/-- R149, with R37, R47, R48, R205 and R289: every step keeps the invariant, from every state that meets it. -/
def Obligations.StepKeepsInvariant : Prop := ∀ s t : State, s.Inv → step s = .next t → t.Inv

/-- The invariant holds of `State.reset`, and after the load of any program of at most 256 words. -/
def Obligations.LoadedStateMeetsInvariant : Prop :=
  State.reset.Inv ∧ ∀ P I : List Byte, P.length ≤ 256 → (State.loaded P I).Inv

/-- R10, R290: whatever commands a host gives, a core is unloaded or meets the invariant. That the fields of an unloaded core
are not specified, so that the claim starts from any unloaded state, is R53, the spec's decision D8 (log 7). -/
def Obligations.ReachableCoresMeetInvariant : Prop := ∀ s : State, Reachable s → s.mode = .unloaded ∨ s.Inv

/-! ## Data memory -/

/-- R47: the model's canonical form is unique, so two memories with the same 256 bytes are the same data (log 4). -/
def Obligations.EqualBytesEqualMemory : Prop :=
  ∀ m k : Memory, m.wf = true → k.wf = true → (∀ a : Byte, m.read a.toNat = k.read a.toNat) → m = k

/-- R69 (derived there): after any run from a `Reset`, a load returns the last value stored at its address, or 0. -/
def Obligations.LoadReturnsLastStore : Prop :=
  ∀ (P I : List Byte) (n : Nat) (s : State), Host.Core.run core n (State.loaded P I) = .next s →
    ∀ (ofs : Offset) (rd rb : Reg), ∃ t : State, exec (.ld ofs rd rb) s = .next t ∧
      t.reg rd = lastStored (storeLog n (State.loaded P I)) (effAddr (s.reg rb) ofs) 0#8

/-- R60, R63, R72: a byte of data memory changes only by the `st` a step executes, at its address and to its value. -/
def Obligations.OnlyStoresChangeMemory : Prop :=
  ∀ s t : State, step s = .next t → ∀ a : Byte, t.memRead a ≠ s.memRead a →
    ∃ v, s.nextStore = some (a, v) ∧ t.memRead a = v

/-! ## Rules about all instructions -/

/-- R37: no instruction writes V, it is clear after `Reset` and stays clear, and a condition V is never taken. -/
def Obligations.OverflowFlagStaysClear : Prop :=
  (∀ (i : Instr) (s t : State), exec i s = .next t → t.flag .v = s.flag .v) ∧
  (∀ (P I : List Byte) (n : Nat) (s : State), Host.Core.run core n (State.loaded P I) = .next s → s.flag .v = false) ∧
  (∀ (r : Reg) (s : State), s.flag .v = false →
    exec (.jcnd .v r) s = .next { s with pc := (s.pc + 1) % s.plen } ∧
    exec (.jlnkcnd .v r) s = .next { s with pc := (s.pc + 1) % s.plen })

/-- R35: the flag register as a number; each flag stands at the bit of its condition code (R36). -/
def Obligations.FlagRegisterNumber : Prop :=
  ∀ s : State,
    s.flags.toNat = 8 * (s.flag .n).toNat + 4 * (s.flag .z).toNat + 2 * (s.flag .c).toNat + (s.flag .v).toNat ∧
    ∀ x : Cond, s.flag x = s.flags.getLsbD x.toBits.toNat

/-- R38 and R144: a flag that the spec's table does not list for an instruction keeps its value (the spec's decision D4). -/
def Obligations.UnlistedFlagsKeepTheirValue : Prop :=
  ∀ (i : Instr) (s t : State), exec i s = .next t → SameFlagsBut (writtenFlags i) s t

/-- R33 (derived there): the writers of the general registers. -/
def Obligations.OnlyTheNamedRegisterIsWritten : Prop :=
  ∀ (i : Instr) (s t : State), exec i s = .next t → SameRegsBut (writtenReg i).toList s t

/-- R33 (derived there): the readers of the general registers. Changing a register that an instruction does not read changes
its outcome in that register alone, and not even there when the instruction completes and overwrites it. -/
def Obligations.UnreadRegisterDoesNotMatter : Prop :=
  ∀ (i : Instr) (s t : State) (q : Reg) (v : Byte), s.mode = .running → q ∉ readRegs i → exec i s = .next t →
    exec i (s.setReg q v) = .next (if writtenReg i = some q ∧ t.mode = .running then t else t.setReg q v)

/-- R39 (derived there): flags are read only by `jcnd` and `jlnkcnd`; no other outcome depends on a flag, beyond the flag
itself where it is not written. -/
def Obligations.OnlyConditionalsReadFlags : Prop :=
  ∀ (i : Instr) (s t : State) (x : Cond) (b : Bool), readsFlag i = false → exec i s = .next t →
    exec i (s.setFlag x b) = .next (if x ∈ writtenFlags i then t else t.setFlag x b)

/-- R41 (derived there): LNK is written only by `jlnk` and a taken `jlnkcnd`, and read only by `mvlnk`. -/
def Obligations.LinkWrittenByCallsReadByMvlnk : Prop :=
  (∀ (i : Instr) (s t : State), exec i s = .next t → t.lnk ≠ s.lnk →
    (∃ r, i = .jlnk r) ∨ (∃ cnd r, i = .jlnkcnd cnd r ∧ s.flag cnd = true)) ∧
  (∀ (i : Instr) (s t : State) (v : Byte), (∀ r, i ≠ .mvlnk r) → exec i s = .next t →
    exec i { s with lnk := v } = .next t ∨ exec i { s with lnk := v } = .next { t with lnk := v })

/-- R48, R72 and R232: no run changes the program or the input. -/
def Obligations.RunsKeepProgramAndInput : Prop :=
  ∀ (n : Nat) (s t : State), Host.Core.run core n s = .next t → t.prog = s.prog ∧ t.inbuf = s.inbuf

/-- R49: the cursor is 0 at reset, only `in` advances it, and only `in` reads the input. That every `in` advances it by one,
also when the input is exhausted, is the spec's decision D11 (log 7). -/
def Obligations.OnlyInReadsTheInput : Prop :=
  (∀ P I : List Byte, (State.loaded P I).inbuf = I ∧ (State.loaded P I).icur = 0) ∧
  (∀ (i : Instr) (s t : State), exec i s = .next t →
    (∃ r, i = .inp r ∧ t.icur = s.icur + 1) ∨ ((∀ r, i ≠ .inp r) ∧ t.icur = s.icur)) ∧
  (∀ (i : Instr) (s t : State) (l : List Byte), (∀ r, i ≠ .inp r) → exec i s = .next t →
    exec i { s with inbuf := l } = .next { t with inbuf := l })

/-- R51: over any run the output grows only at its end, by at most one byte a step, and a step that grows it executes `out`. -/
def Obligations.OutputOnlyAppended : Prop :=
  (∀ (n : Nat) (s t : State), Host.Core.run core n s = .next t → ∃ l, t.outbuf = s.outbuf ++ l ∧ l.length ≤ n) ∧
  (∀ s t : State, step s = .next t → t.outbuf ≠ s.outbuf →
    ∃ r, s.fetched = some (.out r) ∧ t.outbuf = s.outbuf ++ [s.reg r])

/-- R145: the fourteen instructions with the default control flow end at `pc + 1`, with no modulo, and an overrun is caught by
the next fetch. -/
def Obligations.DefaultAdvanceDoesNotWrap : Prop :=
  ∀ (i : Instr) (s : State), advancesByOne i = true → ∃ t : State, exec i s = .next t ∧ t.pc = s.pc + 1 ∧
    (s.mode = .running → s.plen ≤ s.pc + 1 →
      step t = .next { t with mode := .halted (.outOfProgram (s.pc + 1)) })

/-! ## Register and ALU instructions -/

/-- What `ZF` and `NF` compute: the spec's decisions D3 and D2 (log 7). -/
def Obligations.ZeroAndNegative : Prop :=
  ∀ v : Byte, (zf v = true ↔ v.toNat = 0) ∧ (nf v = true ↔ 128 ≤ v.toNat)

/-- R161: only the pc changes, whatever the register field. -/
def Obligations.NopResult : Prop := ∀ (r : Reg) (s : State), exec (.nop r) s = .next { s with pc := s.pc + 1 }

/-- R162, with its frame. -/
def Obligations.IncResult : Prop :=
  ∀ (r : Reg) (s : State), ∃ t : State, exec (.inc r) s = .next t ∧
    (t.reg r).toNat = ((s.reg r).toNat + 1) % 256 ∧
    t.flag .z = zf (t.reg r) ∧ t.flag .n = nf (t.reg r) ∧ t.flag .c = zf (t.reg r) ∧
    t.pc = s.pc + 1 ∧ RegisterFrame [r] [.c, .z, .n] s t

/-- R163, with its frame. -/
def Obligations.DecResult : Prop :=
  ∀ (r : Reg) (s : State), ∃ t : State, exec (.dec r) s = .next t ∧
    (t.reg r).toNat = ((s.reg r).toNat + 255) % 256 ∧
    t.flag .z = zf (t.reg r) ∧ t.flag .n = nf (t.reg r) ∧ t.flag .c = decide ((t.reg r).toNat = 255) ∧
    t.pc = s.pc + 1 ∧ RegisterFrame [r] [.c, .z, .n] s t

/-- R164, with its frame: C is not written. -/
def Obligations.LshftResult : Prop :=
  ∀ (r : Reg) (s : State), ∃ t : State, exec (.lshft r) s = .next t ∧
    (t.reg r).toNat = ((s.reg r).toNat * 2) % 256 ∧
    t.flag .z = zf (t.reg r) ∧ t.flag .n = nf (t.reg r) ∧
    t.pc = s.pc + 1 ∧ RegisterFrame [r] [.z, .n] s t

/-- R165, with its frame: C is not written. -/
def Obligations.RshftResult : Prop :=
  ∀ (r : Reg) (s : State), ∃ t : State, exec (.rshft r) s = .next t ∧
    (t.reg r).toNat = (s.reg r).toNat / 2 ∧
    t.flag .z = zf (t.reg r) ∧ t.flag .n = nf (t.reg r) ∧
    t.pc = s.pc + 1 ∧ RegisterFrame [r] [.z, .n] s t

/-- R166, with its frame: the register after `r` is the destination, N is that of the source. -/
def Obligations.AndResult : Prop :=
  ∀ (r k : Reg) (s : State), k.toBits.toNat = (r.toBits.toNat + 1) % 4 → ∃ t : State, exec (.and r) s = .next t ∧
    (∀ b : Nat, (t.reg k).getLsbD b = ((s.reg r).getLsbD b && (s.reg k).getLsbD b)) ∧
    t.flag .z = zf (t.reg k) ∧ t.flag .n = nf (s.reg r) ∧
    t.pc = s.pc + 1 ∧ RegisterFrame [k] [.z, .n] s t

/-- R167 where the data word exists, with its frame: the word is taken whole and not decoded, and no flag is written. Where it
does not, see `Obligations.SetWithoutDataWordHalts`. -/
def Obligations.SetResult : Prop :=
  ∀ (r : Reg) (s : State), s.pc + 1 < s.plen → ∃ t : State, exec (.set r) s = .next t ∧
    s.prog[s.pc + 1]? = some (t.reg r) ∧ t.pc = s.pc + 2 ∧ RegisterFrame [r] [] s t

/-- R169, with its frame. -/
def Obligations.MvResult : Prop :=
  ∀ (rd rs : Reg) (s : State), ∃ t : State, exec (.mv rd rs) s = .next t ∧
    t.reg rd = s.reg rs ∧ t.pc = s.pc + 1 ∧ RegisterFrame [rd] [] s t

/-- R170, with its frame. -/
def Obligations.AddResult : Prop :=
  ∀ (rd rs : Reg) (s : State), ∃ t : State, exec (.add rd rs) s = .next t ∧
    (t.reg rd).toNat = ((s.reg rd).toNat + (s.reg rs).toNat) % 256 ∧
    t.flag .z = zf (t.reg rd) ∧ t.flag .n = nf (t.reg rd) ∧
    t.flag .c = decide ((s.reg rd).toNat + (s.reg rs).toNat > 255) ∧
    t.pc = s.pc + 1 ∧ RegisterFrame [rd] [.c, .z, .n] s t

/-- R171, with its frame: C is the borrow. -/
def Obligations.SubResult : Prop :=
  ∀ (rd rs : Reg) (s : State), ∃ t : State, exec (.sub rd rs) s = .next t ∧
    ((t.reg rd).toNat : Int) = (((s.reg rd).toNat : Int) - (s.reg rs).toNat + 256) % 256 ∧
    t.flag .z = zf (t.reg rd) ∧ t.flag .n = nf (t.reg rd) ∧
    t.flag .c = decide ((s.reg rd).toNat < (s.reg rs).toNat) ∧
    t.pc = s.pc + 1 ∧ RegisterFrame [rd] [.c, .z, .n] s t

/-- The corner cases that R162, R163, R170 and R171 mark as derived, and C5: the C of `inc`, `dec`, `add` and `sub` is the
unsigned carry or borrow out of 8 bits. -/
def Obligations.CarryIsUnsignedOverflow : Prop :=
  ∀ (rd rs : Reg) (s t : State),
    (exec (.inc rd) s = .next t → (t.flag .c = true ↔ BitVec.uaddOverflow (s.reg rd) 1#8 = true)) ∧
    (exec (.dec rd) s = .next t → (t.flag .c = true ↔ BitVec.usubOverflow (s.reg rd) 1#8 = true)) ∧
    (exec (.add rd rs) s = .next t → (t.flag .c = true ↔ BitVec.uaddOverflow (s.reg rd) (s.reg rs) = true)) ∧
    (exec (.sub rd rs) s = .next t → (t.flag .c = true ↔ BitVec.usubOverflow (s.reg rd) (s.reg rs) = true))

/-! ## Link and control transfer -/

/-- R200, with its frame. -/
def Obligations.MvlnkResult : Prop :=
  ∀ (r : Reg) (s : State), ∃ t : State, exec (.mvlnk r) s = .next t ∧
    t.reg r = s.lnk ∧ t.pc = s.pc + 1 ∧ RegisterFrame [r] [] s t

/-- R201: only the pc changes, to the register's value with no modulo; a target past the program faults at the next step. -/
def Obligations.JumpResult : Prop :=
  ∀ (r : Reg) (s : State), ∃ t : State, exec (.j r) s = .next t ∧ t.pc = (s.reg r).toNat ∧
    t = { s with pc := (s.reg r).toNat } ∧
    (s.mode = .running → s.plen ≤ (s.reg r).toNat →
      step t = .next { t with mode := .halted (.outOfProgram (s.reg r).toNat) })

/-- R202, with its frame: LNK is the wrapped next slot, whole. The hypotheses hold whenever a loaded core executes (R48,
R146). -/
def Obligations.JlnkResult : Prop :=
  ∀ (r : Reg) (s : State), s.pc < s.plen → s.plen ≤ 256 → ∃ t : State, exec (.jlnk r) s = .next t ∧
    t.lnk.toNat = (s.pc + 1) % s.plen ∧ t.pc = (s.reg r).toNat ∧
    SameRegsBut [] s t ∧ SameFlagsBut [] s t ∧ SameMemory s t ∧ SamePorts s t ∧ SameLaunch s t ∧
    (s.mode = .running → s.plen ≤ (s.reg r).toNat →
      step t = .next { t with mode := .halted (.outOfProgram (s.reg r).toNat) })

/-- R203: only the pc changes; not taken it wraps modulo the program length. -/
def Obligations.JcndResult : Prop :=
  ∀ (cnd : Cond) (r : Reg) (s : State),
    (s.flag cnd = true → exec (.jcnd cnd r) s = .next { s with pc := (s.reg r).toNat }) ∧
    (s.flag cnd = false → exec (.jcnd cnd r) s = .next { s with pc := (s.pc + 1) % s.plen }) ∧
    (s.flag cnd = true → s.mode = .running → s.plen ≤ (s.reg r).toNat → ∃ t : State, exec (.jcnd cnd r) s = .next t ∧
      step t = .next { t with mode := .halted (.outOfProgram (s.reg r).toNat) })

/-- R204, with its frame: taken it links and jumps, not taken LNK is unchanged and the pc wraps. -/
def Obligations.JlnkcndResult : Prop :=
  ∀ (cnd : Cond) (r : Reg) (s : State), s.pc < s.plen → s.plen ≤ 256 → ∃ t : State, exec (.jlnkcnd cnd r) s = .next t ∧
    (s.flag cnd = true → t.lnk.toNat = (s.pc + 1) % s.plen ∧ t.pc = (s.reg r).toNat) ∧
    (s.flag cnd = false → t.lnk = s.lnk ∧ t.pc = (s.pc + 1) % s.plen) ∧
    SameRegsBut [] s t ∧ SameFlagsBut [] s t ∧ SameMemory s t ∧ SamePorts s t ∧ SameLaunch s t ∧
    (s.flag cnd = true → s.mode = .running → s.plen ≤ (s.reg r).toNat →
      step t = .next { t with mode := .halted (.outOfProgram (s.reg r).toNat) })

/-! ## Input and output -/

/-- R230, with its frame. That the cursor advances also on an exhausted read is the spec's decision D11 (log 7). -/
def Obligations.InResult : Prop :=
  ∀ (r : Reg) (s : State), ∃ t : State, exec (.inp r) s = .next t ∧
    (∀ v, s.inbuf[s.icur]? = some v → t.reg r = v) ∧ (s.inbuf.length ≤ s.icur → t.reg r = 0#8) ∧
    t.icur = s.icur + 1 ∧ t.flag .z = zf (t.reg r) ∧ t.flag .n = nf (t.reg r) ∧ t.pc = s.pc + 1 ∧
    SameRegsBut [r] s t ∧ SameFlagsBut [.z, .n] s t ∧ t.lnk = s.lnk ∧ SameMemory s t ∧ t.outbuf = s.outbuf ∧ SameLaunch s t

/-- R231, with its frame. That the output never fills is the spec's decision D27 (log 7). -/
def Obligations.OutResult : Prop :=
  ∀ (r : Reg) (s : State), ∃ t : State, exec (.out r) s = .next t ∧
    t.outbuf = s.outbuf ++ [s.reg r] ∧ t.icur = s.icur ∧ t.pc = s.pc + 1 ∧
    SameRegsBut [] s t ∧ SameFlagsBut [] s t ∧ t.lnk = s.lnk ∧ SameMemory s t ∧ SameLaunch s t

/-! ## Load and store -/

/-- R250: the offset is subtracted, modulo 256, and neither instruction modifies its base register (`ld` only where it is the
destination). -/
def Obligations.EffectiveAddress : Prop :=
  (∀ (base : Byte) (ofs : Offset), ((effAddr base ofs).toNat : Int) = ((base.toNat : Int) - ofs.toNat) % 256) ∧
  (∀ (ofs : Offset) (rs rb : Reg) (s t : State), exec (.st ofs rs rb) s = .next t → t.reg rb = s.reg rb) ∧
  (∀ (ofs : Offset) (rd rb : Reg) (s t : State), rd ≠ rb → exec (.ld ofs rd rb) s = .next t → t.reg rb = s.reg rb)

/-- R251, with its frame: the address is that of the old base. -/
def Obligations.LdResult : Prop :=
  ∀ (ofs : Offset) (rd rb : Reg) (s : State), ∃ t : State, exec (.ld ofs rd rb) s = .next t ∧
    (∀ a : Byte, (a.toNat : Int) = (((s.reg rb).toNat : Int) - ofs.toNat) % 256 → t.reg rd = s.memRead a) ∧
    t.flag .z = zf (t.reg rd) ∧ t.flag .n = nf (t.reg rd) ∧
    t.pc = s.pc + 1 ∧ RegisterFrame [rd] [.z, .n] s t

/-- R252, with its frame: one byte is stored, at the effective address, and every other byte reads as before. -/
def Obligations.StResult : Prop :=
  ∀ (ofs : Offset) (rs rb : Reg) (s : State), ∃ t : State, exec (.st ofs rs rb) s = .next t ∧
    (∀ a : Byte, effAddr (s.reg rb) ofs = a →
      (a.toNat : Int) = (((s.reg rb).toNat : Int) - ofs.toNat) % 256 ∧ t.memRead a = s.reg rs ∧
      ∀ b : Byte, b ≠ a → t.memRead b = s.memRead b) ∧
    t.pc = s.pc + 1 ∧ SameRegsBut [] s t ∧ SameFlagsBut [] s t ∧ t.lnk = s.lnk ∧ SamePorts s t ∧ SameLaunch s t

/-! ## The toolchain (outside the block, R4) -/

/-- R111 and R119: a line yields nothing, one label, one instruction, or a `set` and its immediate. -/
def Obligations.LineYieldsItsEntries : Prop :=
  ∀ (l : List Char) (es : List Asm.Entry), Asm.parseLine l = .ok es →
    es = [] ∨ (∃ name, es = [.labelDef name]) ∨ (∃ i, (∀ r, i ≠ .set r) ∧ es = [.instr i]) ∨
    (∃ r m, es = [.instr (.set r), .imm m])

/-- R121 to R123: an assembled program has one word for each entry that is not a label definition, at the slot that counts
such entries before it; instructions and literals stand there as they were written, and a reference to a label stands there
as the literal of the slot where the label is defined, which some entry does. That a reference to a slot above 255 is
refused, so that the literal is the whole slot number, is the model's choice (log 6). -/
def Obligations.AssemblyResolvesEveryLabel : Prop :=
  ∀ (es : List Asm.Entry) (p : List ProgEntry), Asm.assemble es = .ok p →
    p.length = Asm.slotCount es ∧
    (∀ pre i post, es = pre ++ .instr i :: post → p[Asm.slotCount pre]? = some (.instr i)) ∧
    (∀ pre v post, es = pre ++ .imm (.lit v) :: post → p[Asm.slotCount pre]? = some (.imm v)) ∧
    (∀ pre name post, es = pre ++ .imm (.label name) :: post →
      Asm.Entry.labelDef name ∈ es ∧
      ∀ front back, es = front ++ .labelDef name :: back →
        Asm.slotCount front ≤ 255 ∧ p[Asm.slotCount pre]? = some (.imm (BitVec.ofNat 8 (Asm.slotCount front))))

/-- R122: a missing name aborts the assembly. -/
def Obligations.MissingLabelAborts : Prop :=
  ∀ (es : List Asm.Entry) (name : List Char), Asm.Entry.imm (.label name) ∈ es → Asm.Entry.labelDef name ∉ es →
    ∃ e, Asm.assemble es = .error e

/-- R94, R119, R123: what is assembled from source lines without errors is a well-formed program, each `set` followed by its
literal and no literal elsewhere. -/
def Obligations.AssembledProgramIsWellFormed : Prop :=
  ∀ (src : List (List Char)) (es : List Asm.Entry) (p : List ProgEntry),
    Asm.parseLines 0 src = (es, []) → Asm.assemble es = .ok p → Program.wf p = true
end

