-- ==== Sys2Proof/Laws/Assembler.lean ====
section
/-! SUPPORT. What the two passes of the assembler do with one entry: slot counts, and pass 2 read backwards. -/

namespace Sys2Proof.Asm

@[simp] theorem slotCount_nil : slotCount [] = 0 := rfl

@[simp] theorem slotCount_labelDef (name : List Char) (es : List Entry) :
    slotCount (.labelDef name :: es) = slotCount es := rfl

@[simp] theorem slotCount_instr (i : Instr) (es : List Entry) : slotCount (.instr i :: es) = slotCount es + 1 := rfl

@[simp] theorem slotCount_imm (m : Imm) (es : List Entry) : slotCount (.imm m :: es) = slotCount es + 1 := rfl

/-- Pass 2 keeps an instruction as the next word (R123). -/
theorem resolve_instr {table : List (List Char × Nat)} {i : Instr} {rest : List Entry} {p : List ProgEntry}
    (h : resolve table (.instr i :: rest) = .ok p) : ∃ q, resolve table rest = .ok q ∧ p = .instr i :: q := by
  rw [resolve] at h
  split at h
  · rename_i q hq
    cases h
    exact ⟨q, hq, rfl⟩
  · cases h

/-- Pass 2 turns an immediate into one literal: the value written, or the slot of the label it refers to (R122). -/
theorem resolve_imm {table : List (List Char × Nat)} {m : Imm} {rest : List Entry} {p : List ProgEntry}
    (h : resolve table (.imm m :: rest) = .ok p) : ∃ q v, resolve table rest = .ok q ∧ p = .imm v :: q ∧
      (m = .lit v ∨ ∃ name n, m = .label name ∧ slot? table name = some n ∧ n ≤ 255 ∧ v = BitVec.ofNat 8 n) := by
  cases m with
  | lit v =>
    rw [resolve] at h
    split at h
    · rename_i q hq
      cases h
      exact ⟨q, v, hq, rfl, .inl rfl⟩
    · cases h
  | label name =>
    rw [resolve] at h
    split at h
    · cases h
    · rename_i n hn
      split at h
      · rename_i hle
        split at h
        · rename_i q hq
          cases h
          exact ⟨q, _, hq, rfl, .inr ⟨name, n, rfl, hn, hle, rfl⟩⟩
        · cases h
      · cases h

end Sys2Proof.Asm
end

