-- ==== Sys2Proof/Laws/Codec.lean ====
section
/-! SUPPORT. Small facts of the codec: field codes, word strings, images. -/

namespace Sys2Proof

@[simp] theorem Reg.ofBits_toBits (r : Reg) : Reg.ofBits r.toBits = r := by cases r <;> rfl

@[simp] theorem Cond.ofBits_toBits (x : Cond) : Cond.ofBits x.toBits = x := by cases x <;> rfl

@[simp] theorem Reg.toBits_ofBits (b : BitVec 2) : (Reg.ofBits b).toBits = b := by revert b; decide

@[simp] theorem Cond.toBits_ofBits (b : BitVec 2) : (Cond.ofBits b).toBits = b := by revert b; decide

/-- A word string of the right length has a word, and it is the number the string writes (R105). -/
theorem BitString.toWord_ok (b : BitString) (h : BitString.wf b = true) :
    BitString.toWord b = .ok (BitVec.ofNat 8 (BitString.toNat b)) := by simp [BitString.toWord, h]

/-- A word string of any other length is refused (R105). -/
theorem BitString.toWord_error (b : BitString) (h : BitString.wf b = false) :
    BitString.toWord b = .error .invalidEncoding := by simp [BitString.toWord, h]

theorem BitString.ofWord_wf (w : Byte) : BitString.wf (BitString.ofWord w) = true := rfl

/-- The decoder gives the instruction of the row that the word matches (R93, R95 to R97, R99). -/
theorem decode_row (w : Byte) : w &&& (opRow (decode w)).mask = (opRow (decode w)).bits := by revert w; decide

/-- A word matches no other row than its decoded instruction's: no two rows of the opcode table overlap (R100). -/
theorem opRow_unique (w : Byte) (i : Instr) (h : w &&& (opRow i).mask = (opRow i).bits) :
    (opRow i).bits = (opRow (decode w)).bits := by
  cases i <;> simp only [opRow] at h ⊢ <;> revert w <;> decide

end Sys2Proof
end

