-- ==== Sys2Proof/Laws/State.lean ====
section
/-! SUPPORT. One lemma per field per update, each true by definition, so that no proof unfolds a record update. -/

namespace Sys2Proof.Machine

variable (s : State) (r : Reg) (v a : Byte) (x : Cond) (b : Bool) (n : Nat) (m : Mode)

/-! ## setReg -/
@[simp] theorem State.setReg_regs : (s.setReg r v).regs = s.regs.set r v := rfl
@[simp] theorem State.setReg_flags : (s.setReg r v).flags = s.flags := rfl
@[simp] theorem State.setReg_lnk : (s.setReg r v).lnk = s.lnk := rfl
@[simp] theorem State.setReg_pc : (s.setReg r v).pc = s.pc := rfl
@[simp] theorem State.setReg_mem : (s.setReg r v).mem = s.mem := rfl
@[simp] theorem State.setReg_prog : (s.setReg r v).prog = s.prog := rfl
@[simp] theorem State.setReg_inbuf : (s.setReg r v).inbuf = s.inbuf := rfl
@[simp] theorem State.setReg_icur : (s.setReg r v).icur = s.icur := rfl
@[simp] theorem State.setReg_outbuf : (s.setReg r v).outbuf = s.outbuf := rfl
@[simp] theorem State.setReg_mode : (s.setReg r v).mode = s.mode := rfl

/-! ## setFlag -/
@[simp] theorem State.setFlag_regs : (s.setFlag x b).regs = s.regs := rfl
@[simp] theorem State.setFlag_flags : (s.setFlag x b).flags = putFlag s.flags x b := rfl
@[simp] theorem State.setFlag_lnk : (s.setFlag x b).lnk = s.lnk := rfl
@[simp] theorem State.setFlag_pc : (s.setFlag x b).pc = s.pc := rfl
@[simp] theorem State.setFlag_mem : (s.setFlag x b).mem = s.mem := rfl
@[simp] theorem State.setFlag_prog : (s.setFlag x b).prog = s.prog := rfl
@[simp] theorem State.setFlag_inbuf : (s.setFlag x b).inbuf = s.inbuf := rfl
@[simp] theorem State.setFlag_icur : (s.setFlag x b).icur = s.icur := rfl
@[simp] theorem State.setFlag_outbuf : (s.setFlag x b).outbuf = s.outbuf := rfl
@[simp] theorem State.setFlag_mode : (s.setFlag x b).mode = s.mode := rfl

/-! ## memWrite -/
@[simp] theorem State.memWrite_regs : (s.memWrite a v).regs = s.regs := rfl
@[simp] theorem State.memWrite_flags : (s.memWrite a v).flags = s.flags := rfl
@[simp] theorem State.memWrite_lnk : (s.memWrite a v).lnk = s.lnk := rfl
@[simp] theorem State.memWrite_pc : (s.memWrite a v).pc = s.pc := rfl
@[simp] theorem State.memWrite_mem : (s.memWrite a v).mem = s.mem.write a.toNat v := rfl
@[simp] theorem State.memWrite_prog : (s.memWrite a v).prog = s.prog := rfl
@[simp] theorem State.memWrite_inbuf : (s.memWrite a v).inbuf = s.inbuf := rfl
@[simp] theorem State.memWrite_icur : (s.memWrite a v).icur = s.icur := rfl
@[simp] theorem State.memWrite_outbuf : (s.memWrite a v).outbuf = s.outbuf := rfl
@[simp] theorem State.memWrite_mode : (s.memWrite a v).mode = s.mode := rfl

/-! ## setPc -/
@[simp] theorem State.setPc_regs : (s.setPc n).regs = s.regs := rfl
@[simp] theorem State.setPc_flags : (s.setPc n).flags = s.flags := rfl
@[simp] theorem State.setPc_lnk : (s.setPc n).lnk = s.lnk := rfl
@[simp] theorem State.setPc_pc : (s.setPc n).pc = n := rfl
@[simp] theorem State.setPc_mem : (s.setPc n).mem = s.mem := rfl
@[simp] theorem State.setPc_prog : (s.setPc n).prog = s.prog := rfl
@[simp] theorem State.setPc_inbuf : (s.setPc n).inbuf = s.inbuf := rfl
@[simp] theorem State.setPc_icur : (s.setPc n).icur = s.icur := rfl
@[simp] theorem State.setPc_outbuf : (s.setPc n).outbuf = s.outbuf := rfl
@[simp] theorem State.setPc_mode : (s.setPc n).mode = s.mode := rfl

/-! ## saveLink -/
@[simp] theorem State.saveLink_regs : (s.saveLink).regs = s.regs := rfl
@[simp] theorem State.saveLink_flags : (s.saveLink).flags = s.flags := rfl
@[simp] theorem State.saveLink_lnk : (s.saveLink).lnk = BitVec.ofNat 8 s.wrapNext := rfl
@[simp] theorem State.saveLink_pc : (s.saveLink).pc = s.pc := rfl
@[simp] theorem State.saveLink_mem : (s.saveLink).mem = s.mem := rfl
@[simp] theorem State.saveLink_prog : (s.saveLink).prog = s.prog := rfl
@[simp] theorem State.saveLink_inbuf : (s.saveLink).inbuf = s.inbuf := rfl
@[simp] theorem State.saveLink_icur : (s.saveLink).icur = s.icur := rfl
@[simp] theorem State.saveLink_outbuf : (s.saveLink).outbuf = s.outbuf := rfl
@[simp] theorem State.saveLink_mode : (s.saveLink).mode = s.mode := rfl

/-! ## inAdvance -/
@[simp] theorem State.inAdvance_regs : (s.inAdvance).regs = s.regs := rfl
@[simp] theorem State.inAdvance_flags : (s.inAdvance).flags = s.flags := rfl
@[simp] theorem State.inAdvance_lnk : (s.inAdvance).lnk = s.lnk := rfl
@[simp] theorem State.inAdvance_pc : (s.inAdvance).pc = s.pc := rfl
@[simp] theorem State.inAdvance_mem : (s.inAdvance).mem = s.mem := rfl
@[simp] theorem State.inAdvance_prog : (s.inAdvance).prog = s.prog := rfl
@[simp] theorem State.inAdvance_inbuf : (s.inAdvance).inbuf = s.inbuf := rfl
@[simp] theorem State.inAdvance_icur : (s.inAdvance).icur = s.icur + 1 := rfl
@[simp] theorem State.inAdvance_outbuf : (s.inAdvance).outbuf = s.outbuf := rfl
@[simp] theorem State.inAdvance_mode : (s.inAdvance).mode = s.mode := rfl

/-! ## outWrite -/
@[simp] theorem State.outWrite_regs : (s.outWrite v).regs = s.regs := rfl
@[simp] theorem State.outWrite_flags : (s.outWrite v).flags = s.flags := rfl
@[simp] theorem State.outWrite_lnk : (s.outWrite v).lnk = s.lnk := rfl
@[simp] theorem State.outWrite_pc : (s.outWrite v).pc = s.pc := rfl
@[simp] theorem State.outWrite_mem : (s.outWrite v).mem = s.mem := rfl
@[simp] theorem State.outWrite_prog : (s.outWrite v).prog = s.prog := rfl
@[simp] theorem State.outWrite_inbuf : (s.outWrite v).inbuf = s.inbuf := rfl
@[simp] theorem State.outWrite_icur : (s.outWrite v).icur = s.icur := rfl
@[simp] theorem State.outWrite_outbuf : (s.outWrite v).outbuf = s.outbuf ++ [v] := rfl
@[simp] theorem State.outWrite_mode : (s.outWrite v).mode = s.mode := rfl

/-! ## setMode -/
@[simp] theorem State.setMode_regs : (s.setMode m).regs = s.regs := rfl
@[simp] theorem State.setMode_flags : (s.setMode m).flags = s.flags := rfl
@[simp] theorem State.setMode_lnk : (s.setMode m).lnk = s.lnk := rfl
@[simp] theorem State.setMode_pc : (s.setMode m).pc = s.pc := rfl
@[simp] theorem State.setMode_mem : (s.setMode m).mem = s.mem := rfl
@[simp] theorem State.setMode_prog : (s.setMode m).prog = s.prog := rfl
@[simp] theorem State.setMode_inbuf : (s.setMode m).inbuf = s.inbuf := rfl
@[simp] theorem State.setMode_icur : (s.setMode m).icur = s.icur := rfl
@[simp] theorem State.setMode_outbuf : (s.setMode m).outbuf = s.outbuf := rfl
@[simp] theorem State.setMode_mode : (s.setMode m).mode = m := rfl

end Sys2Proof.Machine
end

