-- ==== Sys2Proof/Laws/Ops.lean ====
section
/-! SUPPORT. What each shared operation does, said once: registers, flags, data memory, the pc, the ports, raising a fault. -/

namespace Sys2Proof.Machine

/-! ## Registers -/

theorem RegFile.get_set (f : RegFile) (r q : Reg) (v : Byte) :
    (f.set r v).get q = if q = r then v else f.get q := by
  cases r <;> cases q <;> rfl

@[simp] theorem State.reg_setReg (s : State) (r q : Reg) (v : Byte) :
    (s.setReg r v).reg q = if q = r then v else s.reg q := RegFile.get_set s.regs r q v

@[simp] theorem State.reg_setFlag (s : State) (x : Cond) (b : Bool) (q : Reg) : (s.setFlag x b).reg q = s.reg q := rfl
@[simp] theorem State.reg_setPc (s : State) (n : Nat) (q : Reg) : (s.setPc n).reg q = s.reg q := rfl
@[simp] theorem State.reg_memWrite (s : State) (a v : Byte) (q : Reg) : (s.memWrite a v).reg q = s.reg q := rfl
@[simp] theorem State.reg_saveLink (s : State) (q : Reg) : s.saveLink.reg q = s.reg q := rfl
@[simp] theorem State.reg_inAdvance (s : State) (q : Reg) : s.inAdvance.reg q = s.reg q := rfl
@[simp] theorem State.reg_outWrite (s : State) (v : Byte) (q : Reg) : (s.outWrite v).reg q = s.reg q := rfl
@[simp] theorem State.reg_setMode (s : State) (m : Mode) (q : Reg) : (s.setMode m).reg q = s.reg q := rfl

/-- The destination of `and` is never its source (R166). -/
theorem nextReg_ne (r : Reg) : nextReg r ≠ r := by cases r <;> decide

/-! ## Flags -/

theorem putFlag_bit (f : BitVec 4) (x y : Cond) (b : Bool) :
    (putFlag f x b).getLsbD (flagBit y) = if y = x then b else f.getLsbD (flagBit y) := by
  cases x <;> cases y <;> revert f b <;> decide

@[simp] theorem State.flag_setFlag (s : State) (x y : Cond) (b : Bool) :
    (s.setFlag x b).flag y = if y = x then b else s.flag y := putFlag_bit s.flags x y b

@[simp] theorem State.flag_setReg (s : State) (r : Reg) (v : Byte) (y : Cond) : (s.setReg r v).flag y = s.flag y := rfl
@[simp] theorem State.flag_setPc (s : State) (n : Nat) (y : Cond) : (s.setPc n).flag y = s.flag y := rfl
@[simp] theorem State.flag_memWrite (s : State) (a v : Byte) (y : Cond) : (s.memWrite a v).flag y = s.flag y := rfl
@[simp] theorem State.flag_saveLink (s : State) (y : Cond) : s.saveLink.flag y = s.flag y := rfl
@[simp] theorem State.flag_inAdvance (s : State) (y : Cond) : s.inAdvance.flag y = s.flag y := rfl
@[simp] theorem State.flag_outWrite (s : State) (v : Byte) (y : Cond) : (s.outWrite v).flag y = s.flag y := rfl
@[simp] theorem State.flag_setMode (s : State) (m : Mode) (y : Cond) : (s.setMode m).flag y = s.flag y := rfl

/-- Two flag registers with the same four flags are the same register (R35). -/
theorem flags_ext (f g : BitVec 4) (h : ∀ y, f.getLsbD (flagBit y) = g.getLsbD (flagBit y)) : f = g := by
  have hv := h .v
  have hc := h .c
  have hz := h .z
  have hn := h .n
  revert hv hc hz hn
  clear h
  revert f g
  decide

/-! ## Data memory -/

theorem Memory.read_erase (m : Memory) (a b : Nat) : (m.erase a).read b = if b = a then 0#8 else m.read b := by
  induction m with
  | nil => simp [Memory.erase, Memory.read]
  | cons cell m ih =>
    obtain ⟨k, x⟩ := cell
    by_cases hk : k = a
    · have : Memory.erase ((k, x) :: m) a = Memory.erase m a := by simp [Memory.erase, hk]
      rw [this, ih]
      by_cases hb : b = a
      · simp [hb]
      · have : ¬ k = b := by omega
        simp [hb, Memory.read, this]
    · have : Memory.erase ((k, x) :: m) a = (k, x) :: Memory.erase m a := by simp [Memory.erase, hk]
      rw [this]
      by_cases hb : k = b
      · have : ¬ b = a := by omega
        simp [Memory.read, hb, this]
      · simp [Memory.read, hb, ih]

theorem Memory.read_insert (m : Memory) (a b : Nat) (v : Byte) (h : ∀ cell ∈ m, cell.1 ≠ a) :
    (m.insert a v).read b = if b = a then v else m.read b := by
  induction m with
  | nil =>
    by_cases hb : a = b
    · simp [Memory.insert, Memory.read, hb]
    · have : ¬ b = a := by omega
      simp [Memory.insert, Memory.read, hb, this]
  | cons cell m ih =>
    obtain ⟨k, x⟩ := cell
    have hk : k ≠ a := h (k, x) (by simp)
    have ih := ih fun cell hc => h cell (by simp [hc])
    by_cases hlt : a < k
    · rw [Memory.insert, if_pos hlt]
      by_cases hb : a = b
      · simp [Memory.read, hb]
      · have : ¬ b = a := by omega
        simp [Memory.read, hb, this]
    · rw [Memory.insert, if_neg hlt]
      by_cases hb : k = b
      · have : ¬ b = a := by omega
        simp [Memory.read, hb, this]
      · simp [Memory.read, hb, ih]

theorem Memory.erase_ne (m : Memory) (a : Nat) : ∀ cell ∈ m.erase a, cell.1 ≠ a := by
  intro cell hc
  simpa using (List.mem_filter.mp hc).2

/-- A read after a write, of any memory (R63). -/
theorem Memory.read_write (m : Memory) (a b : Nat) (v : Byte) :
    (m.write a v).read b = if b = a then v else m.read b := by
  unfold Memory.write
  by_cases hv : v = 0#8
  · simp [hv, Memory.read_erase]
  · rw [if_neg hv, Memory.read_insert _ _ _ _ (Memory.erase_ne m a), Memory.read_erase]
    by_cases hb : b = a <;> simp [hb]

theorem Memory.wfFrom_cons (lo k : Nat) (v : Byte) (m : Memory) :
    Memory.wfFrom lo ((k, v) :: m) = true ↔ lo ≤ k ∧ k < 256 ∧ v ≠ 0#8 ∧ Memory.wfFrom (k + 1) m = true := by
  simp [Memory.wfFrom, and_assoc]

theorem Memory.wfFrom_mono (m : Memory) (lo hi : Nat) (h : lo ≤ hi) (hm : Memory.wfFrom hi m = true) :
    Memory.wfFrom lo m = true := by
  cases m with
  | nil => rfl
  | cons cell m =>
    obtain ⟨k, v⟩ := cell
    rw [Memory.wfFrom_cons] at hm ⊢
    exact ⟨by omega, hm.2⟩

theorem Memory.erase_wfFrom (m : Memory) (lo a : Nat) (hm : Memory.wfFrom lo m = true) :
    Memory.wfFrom lo (m.erase a) = true := by
  induction m generalizing lo with
  | nil => rfl
  | cons cell m ih =>
    obtain ⟨k, v⟩ := cell
    rw [Memory.wfFrom_cons] at hm
    have ih := ih (k + 1) hm.2.2.2
    by_cases hk : k = a
    · have : Memory.erase ((k, v) :: m) a = Memory.erase m a := by simp [Memory.erase, hk]
      rw [this]
      exact Memory.wfFrom_mono _ _ _ (by omega) ih
    · have : Memory.erase ((k, v) :: m) a = (k, v) :: Memory.erase m a := by simp [Memory.erase, hk]
      rw [this, Memory.wfFrom_cons]
      exact ⟨hm.1, hm.2.1, hm.2.2.1, ih⟩

theorem Memory.insert_wfFrom (m : Memory) (lo a : Nat) (v : Byte) (hm : Memory.wfFrom lo m = true) (hlo : lo ≤ a)
    (ha : a < 256) (hv : v ≠ 0#8) (hne : ∀ cell ∈ m, cell.1 ≠ a) : Memory.wfFrom lo (m.insert a v) = true := by
  induction m generalizing lo with
  | nil => simp [Memory.insert, hlo, ha, hv, Memory.wfFrom]
  | cons cell m ih =>
    obtain ⟨k, x⟩ := cell
    have hk : k ≠ a := hne (k, x) (by simp)
    rw [Memory.wfFrom_cons] at hm
    by_cases hlt : a < k
    · rw [Memory.insert, if_pos hlt, Memory.wfFrom_cons, Memory.wfFrom_cons]
      exact ⟨hlo, ha, hv, by omega, hm.2⟩
    · rw [Memory.insert, if_neg hlt, Memory.wfFrom_cons]
      exact ⟨hm.1, hm.2.1, hm.2.2.1, ih (k + 1) hm.2.2.2 (by omega) fun cell hc => hne cell (by simp [hc])⟩

/-- Storing at an existing address keeps the canonical form (R47). -/
theorem Memory.write_wf (m : Memory) (a : Nat) (v : Byte) (ha : a < 256) (hm : m.wf = true) : (m.write a v).wf = true := by
  unfold Memory.write
  by_cases hv : v = 0#8
  · rw [if_pos hv]
    exact Memory.erase_wfFrom m 0 a hm
  · rw [if_neg hv]
    exact Memory.insert_wfFrom _ 0 a v (Memory.erase_wfFrom m 0 a hm) (Nat.zero_le a) ha hv (Memory.erase_ne m a)

theorem Memory.nil_wf : Memory.wf [] = true := rfl

/-- `MemWrite` keeps the canonical form of data memory (R47, R63). -/
theorem State.memWrite_wf (s : State) (a v : Byte) (h : s.mem.wf = true) : (s.memWrite a v).mem.wf = true :=
  Memory.write_wf s.mem a.toNat v (by have := a.isLt; omega) h

@[simp] theorem State.memRead_memWrite (s : State) (a b v : Byte) :
    (s.memWrite a v).memRead b = if b = a then v else s.memRead b := by
  simp only [State.memRead, State.memWrite, Memory.read_write]
  by_cases h : b = a
  · simp [h]
  · have : ¬ b.toNat = a.toNat := fun hb => h (BitVec.eq_of_toNat_eq hb)
    simp [h, this]

@[simp] theorem State.memRead_setReg (s : State) (r : Reg) (v a : Byte) : (s.setReg r v).memRead a = s.memRead a := rfl
@[simp] theorem State.memRead_setFlag (s : State) (x : Cond) (b : Bool) (a : Byte) :
    (s.setFlag x b).memRead a = s.memRead a := rfl
@[simp] theorem State.memRead_setPc (s : State) (n : Nat) (a : Byte) : (s.setPc n).memRead a = s.memRead a := rfl
@[simp] theorem State.memRead_saveLink (s : State) (a : Byte) : s.saveLink.memRead a = s.memRead a := rfl
@[simp] theorem State.memRead_inAdvance (s : State) (a : Byte) : s.inAdvance.memRead a = s.memRead a := rfl
@[simp] theorem State.memRead_outWrite (s : State) (v a : Byte) : (s.outWrite v).memRead a = s.memRead a := rfl
@[simp] theorem State.memRead_setMode (s : State) (m : Mode) (a : Byte) : (s.setMode m).memRead a = s.memRead a := rfl

/-! ## The program counter, the link and raising a fault -/

/-- `advance` writes the pc alone. -/
theorem State.advance_eq (s : State) : s.advance = s.setPc (s.pc + 1) := rfl

/-- `jumpReg` writes the pc alone, with the register's value. -/
theorem State.jumpReg_eq (s : State) (r : Reg) : s.jumpReg r = s.setPc (s.reg r).toNat := rfl

theorem State.wrapNext_eq (s : State) : s.wrapNext = (s.pc + 1) % s.plen := rfl

/-- The link saved is the wrapped next slot, whole, when the program has 1 to 256 words (R41, R202). -/
theorem State.saveLink_toNat (s : State) (h0 : 0 < s.plen) (h : s.plen ≤ 256) :
    s.saveLink.lnk.toNat = (s.pc + 1) % s.plen := by
  have hlt : (s.pc + 1) % s.plen < s.plen := Nat.mod_lt _ h0
  simp only [State.saveLink_lnk, State.wrapNext, BitVec.toNat_ofNat]
  omega

theorem State.progRead_none (s : State) (a : Nat) : s.progRead a = none ↔ s.plen ≤ a := List.getElem?_eq_none_iff

theorem State.progRead_lt (s : State) (a : Nat) (w : Byte) (h : s.progRead a = some w) : a < s.plen :=
  (List.getElem?_eq_some_iff.mp h).1

/-- Raising the fault always answers a next state, which differs in its mode alone (R275, R276). -/
theorem raiseOutOfProgram_eq (addr : Nat) (s : State) :
    raiseOutOfProgram addr s = .next (s.setMode (.halted (.outOfProgram addr))) := rfl

/-- Every change of one register is seen by an instruction as a change of that register: the file is its four reads. -/
theorem RegFile.ext_get (f g : RegFile) (h : ∀ q, f.get q = g.get q) : f = g := by
  cases f
  cases g
  simpa [RegFile.get] using ⟨h .r0, h .r1, h .r2, h .r3⟩

end Sys2Proof.Machine
end

