-- ==== Sys2Proof/Laws/PerInstr.lean ====
section
/-! SUPPORT. Statements about every instruction term, one lemma per constructor. -/

namespace Sys2Proof.Laws.TableRow

/-- The instruction is well formed, and its encoded word lies in its row of the opcode table (R93, R95 to R97, R101). -/
def Statement (i : Instr) : Prop := i.wf = true ∧ encode i &&& (opRow i).mask = (opRow i).bits

theorem nop (r : Reg) : Statement (.nop r) := by cases r <;> exact ⟨rfl, rfl⟩
theorem inc (r : Reg) : Statement (.inc r) := by cases r <;> exact ⟨rfl, rfl⟩
theorem dec (r : Reg) : Statement (.dec r) := by cases r <;> exact ⟨rfl, rfl⟩
theorem mvlnk (r : Reg) : Statement (.mvlnk r) := by cases r <;> exact ⟨rfl, rfl⟩
theorem j (r : Reg) : Statement (.j r) := by cases r <;> exact ⟨rfl, rfl⟩
theorem jlnk (r : Reg) : Statement (.jlnk r) := by cases r <;> exact ⟨rfl, rfl⟩
theorem inp (r : Reg) : Statement (.inp r) := by cases r <;> exact ⟨rfl, rfl⟩
theorem out (r : Reg) : Statement (.out r) := by cases r <;> exact ⟨rfl, rfl⟩
theorem lshft (r : Reg) : Statement (.lshft r) := by cases r <;> exact ⟨rfl, rfl⟩
theorem rshft (r : Reg) : Statement (.rshft r) := by cases r <;> exact ⟨rfl, rfl⟩
theorem and (r : Reg) : Statement (.and r) := by cases r <;> exact ⟨rfl, rfl⟩
theorem set (r : Reg) : Statement (.set r) := by cases r <;> exact ⟨rfl, rfl⟩
theorem mv (rd rs : Reg) : Statement (.mv rd rs) := by cases rd <;> cases rs <;> exact ⟨rfl, rfl⟩
theorem add (rd rs : Reg) : Statement (.add rd rs) := by cases rd <;> cases rs <;> exact ⟨rfl, rfl⟩
theorem sub (rd rs : Reg) : Statement (.sub rd rs) := by cases rd <;> cases rs <;> exact ⟨rfl, rfl⟩
theorem jcnd (cnd : Cond) (r : Reg) : Statement (.jcnd cnd r) := by cases cnd <;> cases r <;> exact ⟨rfl, rfl⟩
theorem jlnkcnd (cnd : Cond) (r : Reg) : Statement (.jlnkcnd cnd r) := by cases cnd <;> cases r <;> exact ⟨rfl, rfl⟩
theorem ld (ofs : Offset) (rd rb : Reg) : Statement (.ld ofs rd rb) := by
  refine ⟨rfl, ?_⟩
  cases rd <;> cases rb <;> revert ofs <;> decide
theorem st (ofs : Offset) (rs rb : Reg) : Statement (.st ofs rs rb) := by
  refine ⟨rfl, ?_⟩
  cases rs <;> cases rb <;> revert ofs <;> decide

end Sys2Proof.Laws.TableRow
end

