-- ==== Sys2Proof/Laws/Step.lean ====
section
/-! SUPPORT. What a step, an instruction and a run can do, said once; writes of registers and flags that commute or overwrite. -/

namespace Sys2Proof.Machine

/-! ## The step by its mode (R140) -/

theorem step_of_running (s : State) (h : s.mode = .running) : step s = runFetched s := by simp [step, stepMode, h]

theorem step_of_halted (s : State) (f : Fault) (h : s.mode = .halted f) : step s = .next s := by simp [step, stepMode, h]

theorem step_of_unloaded (s : State) (h : s.mode = .unloaded) : step s = .fault .notLoaded := by simp [step, stepMode, h]

theorem runFetched_some (s : State) (w : Byte) (h : s.progRead s.pc = some w) : runFetched s = exec (decode w) s := by
  simp [runFetched, h]

theorem runFetched_none (s : State) (h : s.progRead s.pc = none) : runFetched s = raiseOutOfProgram s.pc s := by
  simp [runFetched, h]

/-! ## Every instruction -/

/-- Whatever the instruction, `exec` answers a next state that keeps program and input, and either keeps the mode or is the
halt of a `set` without its data word. -/
theorem exec_next (i : Instr) (s : State) : ∃ t, exec i s = .next t ∧ t.prog = s.prog ∧ t.inbuf = s.inbuf ∧
    (t.mode = s.mode ∨
      ∃ r, i = .set r ∧ s.plen ≤ s.pc + 1 ∧ t = s.setMode (.halted (.outOfProgram (s.pc + 1)))) := by
  cases i with
  | set r =>
    cases h : s.progRead (s.pc + 1) with
    | none =>
      refine ⟨s.setMode (.halted (.outOfProgram (s.pc + 1))), ?_, rfl, rfl, .inr ⟨r, rfl, (s.progRead_none _).mp h, rfl⟩⟩
      simp only [exec, execSet, h, raiseOutOfProgram]
    | some v => exact ⟨(s.setReg r v).setPc (s.pc + 2), by simp only [exec, execSet, h], rfl, rfl, .inl rfl⟩
  | jcnd cnd r =>
    refine ⟨_, rfl, ?_⟩
    split <;> exact ⟨rfl, rfl, .inl rfl⟩
  | jlnkcnd cnd r =>
    refine ⟨_, rfl, ?_⟩
    split <;> exact ⟨rfl, rfl, .inl rfl⟩
  | _ => exact ⟨_, rfl, rfl, rfl, .inl rfl⟩

/-! ## Runs -/

/-- A run of one step more is a step and a run. -/
theorem run_succ (n : Nat) (s t : State) (h : Host.Core.run core (n + 1) s = .next t) :
    ∃ u, step s = .next u ∧ Host.Core.run core n u = .next t := by
  cases hs : core.step s with
  | next u =>
    simp only [Host.Core.run, hs] at h
    exact ⟨u, hs, h⟩
  | fault f =>
    simp only [Host.Core.run, hs] at h
    cases h
  | refused r =>
    simp only [Host.Core.run, hs] at h
    cases h

/-! ## Repeated writes -/

theorem State.setReg_setReg (s : State) (r : Reg) (v w : Byte) : (s.setReg r v).setReg r w = s.setReg r w := by
  cases r <;> rfl

theorem State.setReg_comm (s : State) (q r : Reg) (v w : Byte) (h : q ≠ r) :
    (s.setReg q v).setReg r w = (s.setReg r w).setReg q v := by
  cases q <;> cases r <;> first | rfl | exact absurd rfl h

theorem putFlag_putFlag (f : BitVec 4) (x : Cond) (b d : Bool) : putFlag (putFlag f x b) x d = putFlag f x d := by
  cases x <;> revert f b d <;> decide

theorem putFlag_comm (f : BitVec 4) (x y : Cond) (b d : Bool) (h : x ≠ y) :
    putFlag (putFlag f x b) y d = putFlag (putFlag f y d) x b := by
  cases x <;> cases y <;> first | exact absurd rfl h | (revert f b d; decide)

end Sys2Proof.Machine
end

