-- ==== Sys2Proof/Tests/Slice0.lean ====
section
/-! SUPPORT. The author's tests: well-formedness refusals, decoding of words written out from the spec, single steps with the
vectors of 95_test_vectors.md, and a witness for the hypotheses of each statement. -/

namespace Sys2Proof.Tests

open Sys2Proof.Machine

/-- A running core with a program, a pc, its registers and its flags, everything else as after `Reset`. -/
def core4 (p : List Byte) (pc : Nat) (a b c d : Byte) (f : BitVec 4) : State :=
  { State.loaded p [] with pc := pc, regs := ⟨a, b, c, d⟩, flags := f }

/-- The state after one step, if the step answers one. -/
def after (s : State) : Option State :=
  match step s with
  | .next t => some t
  | .fault _ => none
  | .refused _ => none

/-- Registers, flags and pc after one step. -/
def view (s : State) : Option (RegFile × BitVec 4 × Nat) := (after s).map fun t => (t.regs, t.flags, t.pc)

/-! ## Well-formedness: each check refuses an ill-formed term -/

theorem test_image_of_257_words_refused :
    Image.wf (List.replicate 257 (List.replicate 8 false)) = false := by
  rw [Image.wf, List.length_replicate]
  rfl

theorem test_image_of_256_words_accepted :
    Image.wf (List.replicate 256 (List.replicate 8 false)) = true := by
  rw [Image.wf, List.length_replicate, List.all_replicate]
  rfl

theorem test_image_with_7_bit_word_refused :
    Image.wf [List.replicate 8 true, List.replicate 7 true] = false := by decide

theorem test_word_string_of_9_refused : BitString.wf (List.replicate 9 true) = false := by decide

theorem test_set_without_literal_refused : Program.wf [.instr (.set .r0), .instr (.nop .r0)] = false := by decide

theorem test_literal_without_set_refused : Program.wf [.instr (.nop .r0), .imm 1#8] = false := by decide

theorem test_set_with_literal_accepted : Program.wf [.instr (.set .r0), .imm 10#8] = true := by decide

/-! ## Decoding, each word written out bit by bit from the formats of R93, R95, R96, R97 -/

theorem test_decode_nop : decode 0b00000010#8 = .nop .r2 := by decide
theorem test_decode_inc : decode 0b00000101#8 = .inc .r1 := by decide
theorem test_decode_dec : decode 0b00001000#8 = .dec .r0 := by decide
theorem test_decode_mvlnk : decode 0b00001101#8 = .mvlnk .r1 := by decide
theorem test_decode_j : decode 0b00010011#8 = .j .r3 := by decide
theorem test_decode_jlnk : decode 0b00010110#8 = .jlnk .r2 := by decide
theorem test_decode_in : decode 0b00011001#8 = .inp .r1 := by decide
theorem test_decode_out : decode 0b00011101#8 = .out .r1 := by decide
theorem test_decode_lshft : decode 0b00100010#8 = .lshft .r2 := by decide
theorem test_decode_rshft : decode 0b00100111#8 = .rshft .r3 := by decide
theorem test_decode_and : decode 0b00101011#8 = .and .r3 := by decide
theorem test_decode_set : decode 0b00101110#8 = .set .r2 := by decide
theorem test_decode_mv : decode 0b00110010#8 = .mv .r0 .r2 := by decide
theorem test_decode_add : decode 0b01000110#8 = .add .r1 .r2 := by decide
theorem test_decode_sub : decode 0b01011011#8 = .sub .r2 .r3 := by decide
theorem test_decode_jcnd : decode 0b01101011#8 = .jcnd .z .r3 := by decide
theorem test_decode_jlnkcnd : decode 0b01110101#8 = .jlnkcnd .c .r1 := by decide
theorem test_decode_ld : decode 0b10110110#8 = .ld 3#2 .r1 .r2 := by decide
theorem test_decode_st : decode 0b11001011#8 = .st 0#2 .r2 .r3 := by decide

/-- The worked example of R94 and E3: `set r0, 10`. -/
theorem test_encode_set_example :
    encodeString (.set .r0) = [false, false, true, false, true, true, false, false] := by decide

/-- A 7-character word string is the codec's error (R105). -/
theorem test_decode_string_of_7 : decodeString (List.replicate 7 false) = .error .invalidEncoding := by decide

theorem test_decode_empty_stream : decodeStream [] = .error .noWord := by decide

theorem test_table_word_set : decodeTableWord 8 0x2D = some (.set .r1) := by decide

/-- The data word of a `set` placed by `withFetchWord` is 0. -/
theorem test_fetch_word_runs_set :
    view (State.reset.withFetchWord 8 0x2D) = some (⟨0#8, 0#8, 0#8, 0#8⟩, 0#4, 2) := by decide

theorem test_fetch_word_runs_inc :
    view (State.reset.withFetchWord 8 0x05) = some (⟨0#8, 1#8, 0#8, 0#8⟩, 0#4, 1) := by decide

/-! ## Single steps (95_test_vectors.md sections 1 and 2) -/

theorem test_nop_field_3 : view (core4 (List.replicate 5 0#8 ++ [0x03#8]) 5 1#8 2#8 3#8 4#8 0xA#4)
    = some (⟨1#8, 2#8, 3#8, 4#8⟩, 0xA#4, 6) := by decide

theorem test_inc_7F : view (core4 [0x05#8] 0 0#8 0x7F#8 0#8 0#8 0b0110#4)
    = some (⟨0#8, 0x80#8, 0#8, 0#8⟩, 0b1000#4, 1) := by decide

theorem test_inc_FF : view (core4 [0x05#8] 0 0#8 0xFF#8 0#8 0#8 0#4)
    = some (⟨0#8, 0#8, 0#8, 0#8⟩, 0b0110#4, 1) := by decide

theorem test_dec_00 : view (core4 [0x08#8] 0 0#8 7#8 7#8 7#8 0#4)
    = some (⟨0xFF#8, 7#8, 7#8, 7#8⟩, 0b1010#4, 1) := by decide

theorem test_dec_01 : view (core4 [0x08#8] 0 1#8 7#8 7#8 7#8 0b1010#4)
    = some (⟨0#8, 7#8, 7#8, 7#8⟩, 0b0100#4, 1) := by decide

theorem test_lshft_keeps_c : view (core4 [0x22#8] 0 0#8 0#8 0x81#8 0#8 0b0010#4)
    = some (⟨0#8, 0#8, 2#8, 0#8⟩, 0b0010#4, 1) := by decide

theorem test_lshft_40 : view (core4 [0x22#8] 0 0#8 0#8 0x40#8 0#8 0#4)
    = some (⟨0#8, 0#8, 0x80#8, 0#8⟩, 0b1000#4, 1) := by decide

theorem test_rshft_FF : view (core4 [0x27#8] 0 0#8 0#8 0#8 0xFF#8 0b1000#4)
    = some (⟨0#8, 0#8, 0#8, 0x7F#8⟩, 0#4, 1) := by decide

theorem test_rshft_01 : view (core4 [0x27#8] 0 0#8 0#8 0#8 1#8 0#4)
    = some (⟨0#8, 0#8, 0#8, 0#8⟩, 0b0100#4, 1) := by decide

theorem test_and_zero_and_negative : view (core4 [0x28#8] 0 0xF0#8 0x0F#8 0#8 0#8 0#4)
    = some (⟨0xF0#8, 0#8, 0#8, 0#8⟩, 0b1100#4, 1) := by decide

/-- E8: register 3 is the source, register 0 the destination. -/
theorem test_and_wraps_to_r0 : view (core4 [0x2B#8] 0 0xFF#8 0#8 0#8 0x7F#8 0#4)
    = some (⟨0x7F#8, 0#8, 0#8, 0x7F#8⟩, 0#4, 1) := by decide

theorem test_set_takes_opcode_looking_word : view (core4 [0x2C#8, 0x10#8] 0 0#8 1#8 2#8 3#8 0xE#4)
    = some (⟨0x10#8, 1#8, 2#8, 3#8⟩, 0xE#4, 2) := by decide

theorem test_set_at_last_slot_halts : after (core4 [0#8, 0#8, 0#8, 0x2D#8] 3 0#8 9#8 0#8 0#8 0#4)
    = some { core4 [0#8, 0#8, 0#8, 0x2D#8] 3 0#8 9#8 0#8 0#8 0#4 with mode := .halted (.outOfProgram 4) } := by decide

theorem test_mv : view (core4 [0x32#8] 0 1#8 5#8 7#8 6#8 0x6#4)
    = some (⟨7#8, 5#8, 7#8, 6#8⟩, 0x6#4, 1) := by decide

theorem test_add_200_100 : view (core4 [0x41#8] 0 200#8 100#8 0#8 0#8 0#4)
    = some (⟨44#8, 100#8, 0#8, 0#8⟩, 0b0010#4, 1) := by decide

theorem test_add_same_register : view (core4 [0x45#8] 0 0#8 0x81#8 0#8 0#8 0#4)
    = some (⟨0#8, 2#8, 0#8, 0#8⟩, 0b0010#4, 1) := by decide

theorem test_sub_3_5 : view (core4 [0x5B#8] 0 0#8 0#8 3#8 5#8 0#4)
    = some (⟨0#8, 0#8, 0xFE#8, 5#8⟩, 0b1010#4, 1) := by decide

theorem test_sub_80_01 : view (core4 [0x5B#8] 0 0#8 0#8 0x80#8 1#8 0b1010#4)
    = some (⟨0#8, 0#8, 0x7F#8, 1#8⟩, 0#4, 1) := by decide

theorem test_mvlnk : view { core4 [0x0D#8] 0 0#8 0#8 0#8 0#8 0#4 with lnk := 10#8 }
    = some (⟨0#8, 10#8, 0#8, 0#8⟩, 0#4, 1) := by decide

theorem test_j_out_of_program : view (core4 [0x11#8, 0#8, 0#8] 0 0#8 200#8 0#8 0#8 0#4)
    = some (⟨0#8, 200#8, 0#8, 0#8⟩, 0#4, 200) := by decide

theorem test_jlnk : (after (core4 (List.replicate 9 0#8 ++ [0x16#8, 0#8]) 9 0#8 0#8 5#8 0#8 0#4)).map
    (fun t => (t.lnk, t.pc)) = some (10#8, 5) := by decide

theorem test_jlnk_at_last_slot : (after (core4 [0#8, 0#8, 0#8, 0x14#8] 3 1#8 0#8 0#8 0#8 0#4)).map
    (fun t => (t.lnk, t.pc)) = some (0#8, 1) := by decide

theorem test_jcnd_z_taken : view (core4 (List.replicate 10 0#8 ++ [0x6B#8]) 10 0#8 0#8 0#8 12#8 0b0100#4)
    = some (⟨0#8, 0#8, 0#8, 12#8⟩, 0b0100#4, 12) := by decide

theorem test_jcnd_not_taken_wraps : view (core4 (List.replicate 4 0#8 ++ [0x64#8]) 4 9#8 0#8 0#8 0#8 0b1100#4)
    = some (⟨9#8, 0#8, 0#8, 0#8⟩, 0b1100#4, 0) := by decide

theorem test_jlnkcnd_c_taken_at_last_slot :
    (after { core4 [0#8, 0#8, 0#8, 0x75#8] 3 9#8 0#8 0#8 0#8 0b0010#4 with lnk := 6#8 }).map
    (fun t => (t.lnk, t.pc)) = some (0#8, 0) := by decide

theorem test_jlnkcnd_not_taken :
    (after { core4 [0#8, 0#8, 0x78#8, 0#8, 0#8, 0#8, 0#8, 0#8, 0#8] 2 8#8 0#8 0#8 0#8 0#4 with lnk := 6#8 }).map
    (fun t => (t.lnk, t.pc)) = some (6#8, 3) := by decide

theorem test_in_80 : (after { core4 [0x18#8] 0 0#8 0#8 0#8 0#8 0b0010#4 with inbuf := [0x80#8] }).map
    (fun t => (t.regs.r0, t.flags, t.icur)) = some (0x80#8, 0b1010#4, 1) := by decide

theorem test_in_exhausted : (after { core4 [0x18#8] 0 5#8 0#8 0#8 0#8 0#4 with inbuf := [0x41#8], icur := 1 }).map
    (fun t => (t.regs.r0, t.flags, t.icur, t.consumed)) = some (0#8, 0b0100#4, 2, [0x41#8]) := by decide

theorem test_out_appends : (after { core4 [0x1C#8] 0 0xFF#8 0#8 0#8 0#8 0#4 with outbuf := [0x06#8] }).map
    (fun t => t.outbuf) = some [0x06#8, 0xFF#8] := by decide

/-- E5: the source's load example. -/
theorem test_ld_example : view { core4 [0xA1#8] 0 0#8 5#8 0#8 0#8 0b1110#4 with mem := [(3, 9#8)] }
    = some (⟨9#8, 5#8, 0#8, 0#8⟩, 0b0010#4, 1) := by decide

theorem test_ld_address_wraps : view { core4 [0xB6#8] 0 0#8 0#8 0#8 0#8 0#4 with mem := [(253, 0x80#8)] }
    = some (⟨0#8, 0x80#8, 0#8, 0#8⟩, 0b1000#4, 1) := by decide

theorem test_st_address_wraps : (after (core4 [0xE5#8] 0 0#8 1#8 0#8 0#8 0xA#4)).map (fun t => (t.mem, t.flags))
    = some ([(255, 1#8)], 0xA#4) := by decide

/-- Storing 0 leaves no listed byte: the canonical form (R47). -/
theorem test_st_zero_unlists :
    (after { core4 [0xCB#8] 0 0#8 0#8 0#8 40#8 0#4 with mem := [(39, 1#8), (40, 2#8), (41, 3#8)] }).map (fun t => t.mem)
    = some [(39, 1#8), (41, 3#8)] := by decide

theorem test_fall_off_the_end : after (core4 [0#8] 1 0#8 0#8 0#8 0#8 0#4)
    = some { core4 [0#8] 1 0#8 0#8 0#8 0#8 0#4 with mode := .halted (.outOfProgram 1) } := by decide

theorem test_reset_with_257_words_refused :
    Command.run (.reset (List.replicate 257 (List.replicate 8 false)) []) State.reset = .refused .illFormedImage := by
  rw [Command.run, resetCommand, test_image_of_257_words_refused]
  rfl

/-! ## The toolchain (E3, E6, E9; R111, R115, R116) -/

theorem test_parse_set : Asm.parseLine ['s', 'e', 't', ' ', 'r', '0', ',', ' ', '1', '0']
    = .ok [.instr (.set .r0), .imm (.lit 10#8)] := by decide

theorem test_parse_ld : Asm.parseLine ['l', 'd', ' ', 'r', '0', ',', ' ', '2', '[', 'r', '1', ']']
    = .ok [.instr (.ld 2#2 .r0 .r1)] := by decide

theorem test_parse_unknown : Asm.parseLine ['f', 'o', 'o', ' ', 'r', '0'] = .error .unknownInstruction := by decide

theorem test_parse_arity : Asm.parseLine ['i', 'n', 'c'] = .error (.arityMismatch ['i', 'n', 'c']) := by decide

theorem test_parse_bad_register : Asm.parseLine ['i', 'n', 'c', ' ', 'r', '4'] = .error .invalidRegister := by decide

/-- R125 folds ASCII letters; the Kelvin sign is no k (log 6). -/
theorem test_folding_is_ascii : Asm.lower ['J', 'L', 'N', 'K'] = ['j', 'l', 'n', 'k'] ∧
    Asm.lower [Char.ofNat 0x212A] ≠ ['k'] := by decide

/-- D17: `ffh` is a label and `0ffh` the value 255. -/
theorem test_immediate_hex_suffix : Asm.parseImm ['0', 'f', 'f', 'h'] = .ok (.lit 255#8) := by decide

theorem test_immediate_label : Asm.parseImm ['f', 'f', 'h'] = .ok (.label ['f', 'f', 'h']) := by decide

/-- E6 as corrected by C1: `loop: / inc r0 / set r1, loop / j r1` is the words 04 2D 00 11. -/
theorem test_assemble_label_example :
    Asm.assembleText [['l', ':'], ['i', 'n', 'c', ' ', 'r', '0'], ['s', 'e', 't', ' ', 'r', '1', ',', 'l'], ['j', ' ', 'r', '1']]
    = .ok [0x04#8, 0x2D#8, 0x00#8, 0x11#8] := by decide

/-! ## Witnesses: a concrete state and operands that meet the hypotheses of each statement -/

/-- A run of two steps from `Reset`: `set r0, 5` and `st r0, 0[r0]`. -/
def storing : State := State.loaded [0x2C#8, 5#8, 0xC0#8] []

theorem witness_WordStringCodec :
    (∃ b : BitString, b.length ≠ 8) ∧ (∃ b : BitString, b.length = 8) ∧ (0 < 8 ∧ 7 < 8) :=
  ⟨⟨[], by decide⟩, ⟨List.replicate 8 true, by decide⟩, by decide⟩

theorem witness_StepRunsDecodedInstruction : ∃ (s : State) (i : Instr) (w : Byte),
    s.mode = .running ∧ s.progRead s.pc = some (encode i) ∧ s.progRead s.pc = some w :=
  ⟨core4 [0#8, 0xFF#8] 1 0#8 0#8 0#8 0#8 0#4, .st 3#2 .r3 .r3, 0xFF#8, by decide, by decide, by decide⟩

theorem witness_FetchPastEndHalts :
    (∃ s : State, s.mode = .running ∧ s.plen ≤ s.pc ∧ s.plen = 0) ∧
    (∃ s : State, s.mode = .running ∧ s.plen ≤ s.pc ∧ s.plen = 1 ∧ s.pc = 1) :=
  ⟨⟨State.reset, by decide, by decide, by decide⟩,
    ⟨core4 [0#8] 1 0#8 0#8 0#8 0#8 0#4, by decide, by decide, by decide, by decide⟩⟩

theorem witness_SetWithoutDataWordHalts : ∃ s : State, s.plen ≤ s.pc + 1 ∧ s.pc < s.plen :=
  ⟨core4 [0x2C#8] 0 0#8 0#8 0#8 0#8 0#4, by decide, by decide⟩

theorem witness_UnloadedStepFaults : ∃ s : State, s.mode = .unloaded :=
  ⟨{ State.reset with mode := .unloaded }, rfl⟩

theorem witness_HaltedCoreStaysAndReports : ∃ (s : State) (f : Fault), s.mode = .halted f :=
  ⟨{ State.reset with mode := .halted (.outOfProgram 0) }, .outOfProgram 0, rfl⟩

theorem witness_RunningStepExecutesOrHalts :
    (∃ s : State, s.mode = .running ∧ s.pc + 1 = s.plen) ∧ (∃ s : State, s.mode = .running ∧ s.pc = s.plen) ∧
    (∃ s : State, s.mode = .running ∧ s.progRead s.pc = some (encode (.set .r0)) ∧ s.pc + 1 = s.plen) :=
  ⟨⟨core4 [0#8] 0 0#8 0#8 0#8 0#8 0#4, by decide, by decide⟩, ⟨State.reset, by decide, by decide⟩,
    ⟨core4 [0x2C#8] 0 0#8 0#8 0#8 0#8 0#4, by decide, by decide, by decide⟩⟩

theorem witness_ResetReinitialisesEverything : ∃ P : List Byte, P.length ≤ 256 ∧ P.length = 256 :=
  ⟨List.replicate 256 0#8, List.length_replicate.le, List.length_replicate⟩

theorem witness_IllFormedImageRefused :
    (∃ p : List BitString, 256 < p.length) ∧ (∃ p : List BitString, p.length ≤ 256 ∧ ∃ b ∈ p, b.length ≠ 8) ∧
    (∃ p : List BitString, ¬ (256 < p.length ∨ ∃ b ∈ p, b.length ≠ 8)) :=
  ⟨⟨List.replicate 257 [], by rw [List.length_replicate]; decide⟩, ⟨[[]], by decide, [], by simp, by decide⟩, ⟨[], by simp⟩⟩

/-- The state after `Reset` meets the invariant, with a program of one word, and steps. -/
theorem witness_StepKeepsInvariant : ∃ s t : State, s.Inv ∧ step s = .next t ∧ t.pc = 1 :=
  ⟨State.loaded [0x04#8] [], _, ⟨by decide, by decide, by decide, by decide, .inl rfl, by simp [State.loaded]⟩, rfl, rfl⟩

theorem witness_LoadedStateMeetsInvariant : ∃ P : List Byte, P.length ≤ 256 ∧ P.length = 256 :=
  ⟨List.replicate 256 0x2C#8, List.length_replicate.le, List.length_replicate⟩

/-- A core is reachable unloaded, and again after a `Reset` that a host gives it. -/
theorem witness_ReachableCoresMeetInvariant :
    (∃ s : State, Reachable s ∧ s.mode = .unloaded) ∧ (∃ s : State, Reachable s ∧ s.mode = .running) :=
  ⟨⟨{ State.reset with mode := .unloaded }, .powerOn _ rfl, rfl⟩,
    ⟨_, .command (.reset [] []) _ ⟨State.loaded [] [], none⟩ (.powerOn { State.reset with mode := .unloaded } rfl) rfl, rfl⟩⟩

theorem witness_EqualBytesEqualMemory : ∃ m k : Memory, m.wf = true ∧ k.wf = true ∧ m ≠ [] ∧
    (∀ a : Byte, m.read a.toNat = k.read a.toNat) :=
  ⟨[(0, 1#8), (255, 2#8)], [(0, 1#8), (255, 2#8)], by decide, by decide, by decide, fun _ => rfl⟩

theorem witness_LoadReturnsLastStore : ∃ s : State, Host.Core.run core 2 storing = .next s ∧
    storeLog 2 storing = [(5#8, 5#8)] ∧ s.memRead 5#8 = 5#8 := ⟨_, rfl, by decide, by decide⟩

theorem witness_OnlyStoresChangeMemory : ∃ (s t : State) (a : Byte), step s = .next t ∧ t.memRead a ≠ s.memRead a :=
  ⟨core4 [0xE5#8] 0 0#8 1#8 0#8 0#8 0#4, _, 255#8, rfl, by decide⟩

theorem witness_OverflowFlagStaysClear :
    (∃ (i : Instr) (s t : State), exec i s = .next t) ∧
    (∃ s : State, Host.Core.run core 2 storing = .next s) ∧ (∃ s : State, s.flag .v = false) :=
  ⟨⟨.add .r0 .r1, State.reset, _, rfl⟩, ⟨_, rfl⟩, ⟨State.reset, by decide⟩⟩

/-- An instruction that writes flags, and one that writes none. -/
theorem witness_UnlistedFlagsKeepTheirValue :
    (∃ s t : State, exec (.lshft .r0) s = .next t ∧ s.flag .c = true) ∧
    (∃ s t : State, exec (.mv .r0 .r1) s = .next t ∧ s.flags = 0xE#4) :=
  ⟨⟨core4 [] 0 0#8 0#8 0#8 0#8 0b0010#4, _, rfl, by decide⟩, ⟨core4 [] 0 0#8 0#8 0#8 0#8 0xE#4, _, rfl, by decide⟩⟩

theorem witness_OnlyTheNamedRegisterIsWritten : ∃ s t : State, exec (.and .r3) s = .next t ∧ t.reg .r0 ≠ s.reg .r0 :=
  ⟨core4 [] 0 0xFF#8 0#8 0#8 0x7F#8 0#4, _, rfl, by decide⟩

/-- An unread register that is overwritten, and one that is not. -/
theorem witness_UnreadRegisterDoesNotMatter :
    (∃ s t : State, s.mode = .running ∧ (.r0 : Reg) ∉ readRegs (.mv .r0 .r1) ∧ exec (.mv .r0 .r1) s = .next t) ∧
    (∃ s t : State, s.mode = .running ∧ (.r2 : Reg) ∉ readRegs (.mv .r0 .r1) ∧ exec (.mv .r0 .r1) s = .next t) ∧
    (∃ s t : State, s.mode = .running ∧ (.r0 : Reg) ∉ readRegs (.set .r0) ∧ exec (.set .r0) s = .next t ∧
      t.mode ≠ .running) :=
  ⟨⟨State.reset, _, rfl, by decide, rfl⟩, ⟨State.reset, _, rfl, by decide, rfl⟩, ⟨State.reset, _, rfl, by decide, rfl, by decide⟩⟩

theorem witness_OnlyConditionalsReadFlags : ∃ s t : State, readsFlag (.add .r0 .r1) = false ∧
    exec (.add .r0 .r1) s = .next t ∧ (.c : Cond) ∈ writtenFlags (.add .r0 .r1) ∧ (.v : Cond) ∉ writtenFlags (.add .r0 .r1) :=
  ⟨State.reset, _, rfl, rfl, by decide, by decide⟩

theorem witness_LinkWrittenByCallsReadByMvlnk :
    (∃ s t : State, exec (.jlnk .r0) s = .next t ∧ t.lnk ≠ s.lnk) ∧
    (∃ s t : State, exec (.jlnkcnd .z .r0) s = .next t ∧ t.lnk ≠ s.lnk) ∧
    (∃ s t : State, (∀ r, Instr.nop .r0 ≠ .mvlnk r) ∧ exec (.nop .r0) s = .next t) :=
  ⟨⟨core4 [0#8, 0#8] 0 0#8 0#8 0#8 0#8 0#4, _, rfl, by decide⟩,
    ⟨core4 [0#8, 0#8] 0 0#8 0#8 0#8 0#8 0b0100#4, _, rfl, by decide⟩, ⟨State.reset, _, by simp, rfl⟩⟩

theorem witness_RunsKeepProgramAndInput : ∃ t : State, Host.Core.run core 2 storing = .next t := ⟨_, rfl⟩

theorem witness_OnlyInReadsTheInput :
    (∃ s t : State, exec (.inp .r0) s = .next t ∧ t.icur = 1) ∧
    (∃ s t : State, (∀ r, Instr.out .r0 ≠ .inp r) ∧ exec (.out .r0) s = .next t) :=
  ⟨⟨State.reset, _, rfl, rfl⟩, ⟨State.reset, _, by simp, rfl⟩⟩

theorem witness_OutputOnlyAppended :
    (∃ t : State, Host.Core.run core 2 storing = .next t) ∧
    (∃ s t : State, step s = .next t ∧ t.outbuf ≠ s.outbuf) :=
  ⟨⟨_, rfl⟩, ⟨core4 [0x1C#8] 0 0#8 0#8 0#8 0#8 0#4, _, rfl, by decide⟩⟩

theorem witness_DefaultAdvanceDoesNotWrap : ∃ s : State, advancesByOne (.nop .r0) = true ∧ s.mode = .running ∧
    s.plen ≤ s.pc + 1 ∧ s.pc < s.plen := ⟨core4 [0#8] 0 0#8 0#8 0#8 0#8 0#4, rfl, rfl, by decide, by decide⟩

theorem witness_AndResult : Reg.r0.toBits.toNat = (Reg.r3.toBits.toNat + 1) % 4 := by decide

theorem witness_SetResult : ∃ s : State, s.pc + 1 < s.plen ∧ s.pc + 2 = s.plen :=
  ⟨core4 [0x2C#8, 7#8] 0 0#8 0#8 0#8 0#8 0#4, by decide, by decide⟩

theorem witness_CarryIsUnsignedOverflow : ∃ s : State,
    (∃ t, exec (.inc .r0) s = .next t) ∧ (∃ t, exec (.dec .r1) s = .next t) ∧
    (∃ t, exec (.add .r0 .r0) s = .next t ∧ t.flag .c = true) ∧ (∃ t, exec (.sub .r1 .r0) s = .next t ∧ t.flag .c = true) :=
  ⟨core4 [] 0 0xFF#8 0#8 0#8 0#8 0#4, ⟨_, rfl⟩, ⟨_, rfl⟩, ⟨_, rfl, by decide⟩, ⟨_, rfl, by decide⟩⟩

theorem witness_JumpResult : ∃ s : State, s.mode = .running ∧ s.plen ≤ (s.reg .r1).toNat :=
  ⟨core4 [0x11#8] 0 0#8 1#8 0#8 0#8 0#4, rfl, by decide⟩

/-- The last slot of a full program, and a target just past a short one. -/
theorem witness_JlnkResult :
    (∃ s : State, s.pc < s.plen ∧ s.plen ≤ 256 ∧ s.pc = 255) ∧
    (∃ s : State, s.pc < s.plen ∧ s.plen ≤ 256 ∧ s.mode = .running ∧ s.plen ≤ (s.reg .r1).toNat) :=
  ⟨⟨core4 (List.replicate 256 0x14#8) 255 0#8 0#8 0#8 0#8 0#4, List.length_replicate.ge, List.length_replicate.le, rfl⟩,
    ⟨core4 [0x15#8] 0 0#8 1#8 0#8 0#8 0#4, by decide, by decide, rfl, by decide⟩⟩

theorem witness_JcndResult :
    (∃ s : State, s.flag .z = true ∧ s.mode = .running ∧ s.plen ≤ (s.reg .r1).toNat) ∧ (∃ s : State, s.flag .z = false) :=
  ⟨⟨core4 [0x69#8] 0 0#8 1#8 0#8 0#8 0b0100#4, by decide, rfl, by decide⟩, ⟨State.reset, by decide⟩⟩

theorem witness_JlnkcndResult :
    (∃ s : State, s.pc < s.plen ∧ s.plen ≤ 256 ∧ s.flag .c = true ∧ s.mode = .running ∧ s.plen ≤ (s.reg .r1).toNat) ∧
    (∃ s : State, s.pc < s.plen ∧ s.plen ≤ 256 ∧ s.flag .c = false ∧ s.pc + 1 = s.plen) :=
  ⟨⟨core4 [0x75#8] 0 0#8 1#8 0#8 0#8 0b0010#4, by decide, by decide, by decide, rfl, by decide⟩,
    ⟨core4 [0x75#8] 0 0#8 1#8 0#8 0#8 0#4, by decide, by decide, by decide, by decide⟩⟩

/-- The last input byte, and the first read past it. -/
theorem witness_InResult :
    (∃ (s : State) (v : Byte), s.inbuf[s.icur]? = some v ∧ s.icur + 1 = s.inbuf.length) ∧
    (∃ s : State, s.inbuf.length ≤ s.icur ∧ s.inbuf.length = 1) :=
  ⟨⟨State.loaded [] [0x41#8], 0x41#8, by decide, by decide⟩,
    ⟨{ State.loaded [] [0x41#8] with icur := 1 }, by decide, by decide⟩⟩

theorem witness_EffectiveAddress :
    (∃ s t : State, exec (.st 3#2 .r0 .r0) s = .next t) ∧ (∃ s t : State, Reg.r0 ≠ Reg.r1 ∧ exec (.ld 3#2 .r0 .r1) s = .next t) :=
  ⟨⟨State.reset, _, rfl⟩, ⟨State.reset, _, by decide, rfl⟩⟩

/-- A base of 0 and an offset of 3 give the address 253. -/
theorem witness_LdResult : ∃ (s : State) (a : Byte),
    (a.toNat : Int) = (((s.reg .r2).toNat : Int) - (3#2).toNat) % 256 ∧ a = 253#8 := ⟨State.reset, 253#8, by decide, rfl⟩

theorem witness_StResult : ∃ (s : State) (a b : Byte), effAddr (s.reg .r2) 3#2 = a ∧ b ≠ a :=
  ⟨State.reset, 253#8, 0#8, by decide, by decide⟩

theorem witness_LineYieldsItsEntries : Asm.parseLine ['j', ' ', 'a'] = .ok [.instr (.j .r0)] := by decide

/-- `set r0, x / set r1, 7 / x:`: an instruction at slot 0, a reference at slot 1, a literal at slot 3, and the label defined
at slot 4, past the last word. -/
def labelled : List Asm.Entry :=
  [.instr (.set .r0), .imm (.label ['x']), .instr (.set .r1), .imm (.lit 7#8), .labelDef ['x']]

theorem witness_AssemblyResolvesEveryLabel :
    (∃ p, Asm.assemble labelled = .ok p ∧ p[1]? = some (.imm 4#8)) ∧
    labelled = [] ++ .instr (.set .r0) :: labelled.drop 1 ∧
    labelled = labelled.take 3 ++ .imm (.lit 7#8) :: labelled.drop 4 ∧
    labelled = labelled.take 1 ++ .imm (.label ['x']) :: labelled.drop 2 ∧
    labelled = labelled.take 4 ++ .labelDef ['x'] :: [] ∧ Asm.slotCount (labelled.take 4) = 4 :=
  ⟨⟨[.instr (.set .r0), .imm 4#8, .instr (.set .r1), .imm 7#8], by decide, rfl⟩, rfl, rfl, rfl, rfl, rfl⟩

/-- An offset above 3 and a bad register in one operand: the offset is reported (log 6). -/
theorem test_memory_operand_offset_first : Asm.parseMem ['9', '[', 'z', 'z', ']'] = .error .invalidAddressSyntax := by decide

/-- A duplicate label and an unresolved one: the duplicate is reported (log 6). -/
theorem test_duplicate_before_unresolved :
    Asm.assemble [.labelDef ['x'], .labelDef ['x'], .instr (.set .r0), .imm (.label ['y'])]
    = .error (.duplicateLabel ['x']) := by decide

theorem witness_MissingLabelAborts : ∃ (es : List Asm.Entry) (name : List Char),
    Asm.Entry.imm (.label name) ∈ es ∧ Asm.Entry.labelDef name ∉ es :=
  ⟨[.instr (.set .r0), .imm (.label ['x'])], ['x'], by decide, by decide⟩

theorem witness_AssembledProgramIsWellFormed : ∃ (es : List Asm.Entry) (p : List ProgEntry),
    Asm.parseLines 0 [['s', 'e', 't', ' ', 'a', ',', '7']] = (es, []) ∧ Asm.assemble es = .ok p :=
  ⟨[.instr (.set .r0), .imm (.lit 7#8)], [.instr (.set .r0), .imm 7#8], by decide, by decide⟩

end Sys2Proof.Tests
end

section
/-! SUPPORT. One reasoning rule per instruction: the next state as the named updates of registers, flags, memory, ports and
pc, in the order registers, flags, the rest. -/

namespace Sys2Proof.Machine

variable (r rd rs rb : Reg) (cnd : Cond) (ofs : Offset) (s : State)

@[simp] theorem exec_nop : exec (.nop r) s = .next (s.setPc (s.pc + 1)) := rfl

@[simp] theorem exec_inc : exec (.inc r) s = .next (((s.setReg r (incRes (s.reg r))).setZNC
    (zf (incRes (s.reg r))) (nf (incRes (s.reg r))) (zf (incRes (s.reg r)))).setPc (s.pc + 1)) := rfl

@[simp] theorem exec_dec : exec (.dec r) s = .next (((s.setReg r (decRes (s.reg r))).setZNC
    (zf (decRes (s.reg r))) (nf (decRes (s.reg r))) (decCarry (decRes (s.reg r)))).setPc (s.pc + 1)) := rfl

@[simp] theorem exec_mvlnk : exec (.mvlnk r) s = .next ((s.setReg r s.lnk).setPc (s.pc + 1)) := rfl

@[simp] theorem exec_j : exec (.j r) s = .next (s.setPc (s.reg r).toNat) := rfl

@[simp] theorem exec_jlnk : exec (.jlnk r) s = .next (s.saveLink.setPc (s.reg r).toNat) := rfl

@[simp] theorem exec_inp : exec (.inp r) s = .next (((s.setReg r s.inByte).setZN
    (zf s.inByte) (nf s.inByte)).inAdvance.setPc (s.pc + 1)) := rfl

@[simp] theorem exec_out : exec (.out r) s = .next ((s.outWrite (s.reg r)).setPc (s.pc + 1)) := rfl

@[simp] theorem exec_lshft : exec (.lshft r) s = .next (((s.setReg r (lshftRes (s.reg r))).setZN
    (zf (lshftRes (s.reg r))) (nf (lshftRes (s.reg r)))).setPc (s.pc + 1)) := rfl

@[simp] theorem exec_rshft : exec (.rshft r) s = .next (((s.setReg r (rshftRes (s.reg r))).setZN
    (zf (rshftRes (s.reg r))) (nf (rshftRes (s.reg r)))).setPc (s.pc + 1)) := rfl

@[simp] theorem exec_and : exec (.and r) s = .next (((s.setReg (nextReg r) (s.reg r &&& s.reg (nextReg r))).setZN
    (zf (s.reg r &&& s.reg (nextReg r))) (nf (s.reg r))).setPc (s.pc + 1)) := rfl

theorem exec_set_some (v : Byte) (h : s.progRead (s.pc + 1) = some v) :
    exec (.set r) s = .next ((s.setReg r v).setPc (s.pc + 2)) := by simp only [exec, execSet, h]

theorem exec_set_none (h : s.progRead (s.pc + 1) = none) :
    exec (.set r) s = .next (s.setMode (.halted (.outOfProgram (s.pc + 1)))) := by
  simp only [exec, execSet, h, raiseOutOfProgram_eq]

@[simp] theorem exec_mv : exec (.mv rd rs) s = .next ((s.setReg rd (s.reg rs)).setPc (s.pc + 1)) := rfl

@[simp] theorem exec_add : exec (.add rd rs) s = .next (((s.setReg rd (addRes (s.reg rd) (s.reg rs))).setZNC
    (zf (addRes (s.reg rd) (s.reg rs))) (nf (addRes (s.reg rd) (s.reg rs)))
    (addCarry (s.reg rd) (s.reg rs))).setPc (s.pc + 1)) := rfl

@[simp] theorem exec_sub : exec (.sub rd rs) s = .next (((s.setReg rd (subRes (s.reg rd) (s.reg rs))).setZNC
    (zf (subRes (s.reg rd) (s.reg rs))) (nf (subRes (s.reg rd) (s.reg rs)))
    (subBorrow (s.reg rd) (s.reg rs))).setPc (s.pc + 1)) := rfl

theorem exec_jcnd_taken (h : s.flag cnd = true) : exec (.jcnd cnd r) s = .next (s.setPc (s.reg r).toNat) := by
  simp only [exec, execJcnd, h, if_true, State.jumpReg_eq]

theorem exec_jcnd_not_taken (h : s.flag cnd = false) : exec (.jcnd cnd r) s = .next (s.setPc s.wrapNext) := by
  simp [exec, execJcnd, h]

theorem exec_jlnkcnd_taken (h : s.flag cnd = true) :
    exec (.jlnkcnd cnd r) s = .next (s.saveLink.setPc (s.reg r).toNat) := by
  simp only [exec, execJlnkcnd, h, if_true, State.jumpReg_eq, State.reg_saveLink]

theorem exec_jlnkcnd_not_taken (h : s.flag cnd = false) : exec (.jlnkcnd cnd r) s = .next (s.setPc s.wrapNext) := by
  simp [exec, execJlnkcnd, h]

@[simp] theorem exec_ld : exec (.ld ofs rd rb) s = .next (((s.setReg rd (s.memRead (effAddr (s.reg rb) ofs))).setZN
    (zf (s.memRead (effAddr (s.reg rb) ofs))) (nf (s.memRead (effAddr (s.reg rb) ofs)))).setPc (s.pc + 1)) := rfl

@[simp] theorem exec_st : exec (.st ofs rs rb) s =
    .next ((s.memWrite (effAddr (s.reg rb) ofs) (s.reg rs)).setPc (s.pc + 1)) := rfl

/-- The two outcomes of `set`: its data word is taken (R167), or it is absent and the core halts (R168). -/
theorem exec_set_cases {r : Reg} {s t : State} (h : exec (.set r) s = .next t) :
    (∃ v, s.progRead (s.pc + 1) = some v ∧ t = (s.setReg r v).setPc (s.pc + 2)) ∨
    (s.progRead (s.pc + 1) = none ∧ t = s.setMode (.halted (.outOfProgram (s.pc + 1)))) := by
  cases hw : s.progRead (s.pc + 1) with
  | some v =>
    rw [exec_set_some r s v hw] at h
    cases h
    exact .inl ⟨v, rfl, rfl⟩
  | none =>
    rw [exec_set_none r s hw] at h
    cases h
    exact .inr ⟨rfl, rfl⟩

/-- The two outcomes of `jcnd`: taken and not taken (R203). -/
theorem exec_jcnd_cases {cnd : Cond} {r : Reg} {s t : State} (h : exec (.jcnd cnd r) s = .next t) :
    (s.flag cnd = true ∧ t = s.setPc (s.reg r).toNat) ∨ (s.flag cnd = false ∧ t = s.setPc s.wrapNext) := by
  cases hc : s.flag cnd with
  | true =>
    rw [exec_jcnd_taken r cnd s hc] at h
    cases h
    exact .inl ⟨rfl, rfl⟩
  | false =>
    rw [exec_jcnd_not_taken r cnd s hc] at h
    cases h
    exact .inr ⟨rfl, rfl⟩

/-- The two outcomes of `jlnkcnd`: taken and not taken (R204). -/
theorem exec_jlnkcnd_cases {cnd : Cond} {r : Reg} {s t : State} (h : exec (.jlnkcnd cnd r) s = .next t) :
    (s.flag cnd = true ∧ t = s.saveLink.setPc (s.reg r).toNat) ∨ (s.flag cnd = false ∧ t = s.setPc s.wrapNext) := by
  cases hc : s.flag cnd with
  | true =>
    rw [exec_jlnkcnd_taken r cnd s hc] at h
    cases h
    exact .inl ⟨rfl, rfl⟩
  | false =>
    rw [exec_jlnkcnd_not_taken r cnd s hc] at h
    cases h
    exact .inr ⟨rfl, rfl⟩

end Sys2Proof.Machine
end

section
/-! SUPPORT. How updates of the state pass one another: a register write moves inside every other update, a flag write
inside every update but that of a register. With these as simp rules, two orders of the same updates have one normal form. -/

namespace Sys2Proof.Machine

variable (s : State) (q : Reg) (v w a : Byte) (x : Cond) (b z n c : Bool) (k : Nat) (m : Mode)

/-! ## What a register write or a flag write leaves to be read -/

@[simp] theorem State.inByte_setReg : (s.setReg q v).inByte = s.inByte := rfl
@[simp] theorem State.wrapNext_setReg : (s.setReg q v).wrapNext = s.wrapNext := rfl
@[simp] theorem State.inByte_setFlag : (s.setFlag x b).inByte = s.inByte := rfl

/-- Every flag is clear after a `Reset` (R56). -/
@[simp] theorem State.flag_loaded (P I : List Byte) : (State.loaded P I).flag x = false := by
  simp [State.flag, State.loaded]

/-! ## The combined flag writes (R144) -/

@[simp] theorem State.setZN_pc : (s.setZN z n).pc = s.pc := rfl
@[simp] theorem State.setZNC_pc : (s.setZNC z n c).pc = s.pc := rfl
@[simp] theorem State.reg_setZN : (s.setZN z n).reg q = s.reg q := rfl
@[simp] theorem State.reg_setZNC : (s.setZNC z n c).reg q = s.reg q := rfl

@[simp] theorem State.flag_setZN : (s.setZN z n).flag x = if x = .n then n else if x = .z then z else s.flag x := by
  simp [State.setZN]

@[simp] theorem State.flag_setZNC :
    (s.setZNC z n c).flag x = if x = .c then c else if x = .n then n else if x = .z then z else s.flag x := by
  simp [State.setZNC]

@[simp] theorem State.inAdvance_setZN : s.inAdvance.setZN z n = (s.setZN z n).inAdvance := rfl

/-! ## A register write moves inside -/

@[simp] theorem State.setFlag_setReg : (s.setFlag x b).setReg q v = (s.setReg q v).setFlag x b := rfl
@[simp] theorem State.setZN_setReg : (s.setZN z n).setReg q v = (s.setReg q v).setZN z n := rfl
@[simp] theorem State.setZNC_setReg : (s.setZNC z n c).setReg q v = (s.setReg q v).setZNC z n c := rfl
@[simp] theorem State.setPc_setReg : (s.setPc k).setReg q v = (s.setReg q v).setPc k := rfl
@[simp] theorem State.memWrite_setReg : (s.memWrite a w).setReg q v = (s.setReg q v).memWrite a w := rfl
@[simp] theorem State.saveLink_setReg : s.saveLink.setReg q v = (s.setReg q v).saveLink := rfl
@[simp] theorem State.inAdvance_setReg : s.inAdvance.setReg q v = (s.setReg q v).inAdvance := rfl
@[simp] theorem State.outWrite_setReg : (s.outWrite w).setReg q v = (s.setReg q v).outWrite w := rfl
@[simp] theorem State.setMode_setReg : (s.setMode m).setReg q v = (s.setReg q v).setMode m := rfl

/-! ## A flag write moves inside -/

@[simp] theorem State.setPc_setFlag : (s.setPc k).setFlag x b = (s.setFlag x b).setPc k := rfl
@[simp] theorem State.memWrite_setFlag : (s.memWrite a w).setFlag x b = (s.setFlag x b).memWrite a w := rfl
@[simp] theorem State.saveLink_setFlag : s.saveLink.setFlag x b = (s.setFlag x b).saveLink := rfl
@[simp] theorem State.inAdvance_setFlag : s.inAdvance.setFlag x b = (s.setFlag x b).inAdvance := rfl
@[simp] theorem State.outWrite_setFlag : (s.outWrite w).setFlag x b = (s.setFlag x b).outWrite w := rfl
@[simp] theorem State.setMode_setFlag : (s.setMode m).setFlag x b = (s.setFlag x b).setMode m := rfl

/-! ## Two flag writes -/

theorem State.setFlag_setFlag (d : Bool) : (s.setFlag x b).setFlag x d = s.setFlag x d := by
  simp only [State.setFlag, putFlag_putFlag]

theorem State.setFlag_comm (y : Cond) (d : Bool) (h : x ≠ y) :
    (s.setFlag x b).setFlag y d = (s.setFlag y d).setFlag x b := by
  simp only [State.setFlag, putFlag_comm _ x y b d h]

/-- A flag written before Z and N is overwritten when it is one of them. -/
theorem State.setFlag_setZN_of_mem (h : x ∈ [Cond.z, Cond.n]) : (s.setFlag x b).setZN z n = s.setZN z n := by
  cases x with
  | v | c => simp at h
  | z => simp only [State.setZN, State.setFlag_setFlag]
  | n => rw [State.setZN, State.setFlag_comm _ .n b .z z (by decide), State.setFlag_setFlag, State.setZN]

/-- A flag written before Z and N is as if written after them when it is neither. -/
theorem State.setFlag_setZN_of_not_mem (h : x ∉ [Cond.z, Cond.n]) :
    (s.setFlag x b).setZN z n = (s.setZN z n).setFlag x b := by
  obtain ⟨hz, hn⟩ : x ≠ .z ∧ x ≠ .n := by simpa using h
  simp only [State.setZN, State.setFlag_comm _ x b .z z hz, State.setFlag_comm _ x b .n n hn]

/-- A flag written before Z, N and C is overwritten when it is one of them. -/
theorem State.setFlag_setZNC_of_mem (h : x ∈ [Cond.c, Cond.z, Cond.n]) :
    (s.setFlag x b).setZNC z n c = s.setZNC z n c := by
  by_cases hzn : x ∈ [Cond.z, Cond.n]
  · rw [State.setZNC, State.setFlag_setZN_of_mem s x b z n hzn, State.setZNC]
  · obtain rfl : x = .c := (List.mem_cons.mp h).resolve_right hzn
    rw [State.setZNC, State.setFlag_setZN_of_not_mem s .c b z n hzn, State.setFlag_setFlag, State.setZNC]

/-- A flag written before Z, N and C is as if written after them when it is none of them. -/
theorem State.setFlag_setZNC_of_not_mem (h : x ∉ [Cond.c, Cond.z, Cond.n]) :
    (s.setFlag x b).setZNC z n c = (s.setZNC z n c).setFlag x b := by
  rw [State.setZNC, State.setFlag_setZN_of_not_mem s x b z n (List.not_mem_of_not_mem_cons h),
    State.setFlag_comm _ x b .c c (List.ne_of_not_mem_cons h), State.setZNC]

end Sys2Proof.Machine
end

section
/-! SUPPORT. What a step and a run keep, packaged once. -/

namespace Sys2Proof.Machine

/-- What a step that answers a next state does: nothing to a halted core; the halt of a fetch past the end; or the
execution of the instruction fetched. -/
theorem step_next {s t : State} (h : step s = .next t) :
    (∃ f, s.mode = .halted f ∧ t = s) ∨
    (s.mode = .running ∧ s.plen ≤ s.pc ∧ t = s.setMode (.halted (.outOfProgram s.pc))) ∨
    (s.mode = .running ∧ ∃ w, s.progRead s.pc = some w ∧ exec (decode w) s = .next t) := by
  cases hm : s.mode with
  | unloaded => simp [step_of_unloaded s hm] at h
  | halted f =>
    rw [step_of_halted s f hm] at h
    cases h
    exact .inl ⟨f, rfl, rfl⟩
  | running =>
    rw [step_of_running s hm] at h
    cases hw : s.progRead s.pc with
    | none =>
      rw [runFetched_none s hw, raiseOutOfProgram_eq] at h
      cases h
      exact .inr (.inl ⟨rfl, (s.progRead_none _).mp hw, rfl⟩)
    | some w => exact .inr (.inr ⟨rfl, w, rfl, runFetched_some s w hw ▸ h⟩)

/-- What every step keeps, every run keeps. -/
theorem run_induction {P : State → Prop} (hstep : ∀ s t, P s → step s = .next t → P t) (n : Nat) {s t : State}
    (hs : P s) (h : Host.Core.run core n s = .next t) : P t := by
  induction n generalizing s with
  | zero =>
    cases h
    exact hs
  | succ n ih =>
    obtain ⟨u, hu, hrun⟩ := run_succ n s t h
    exact ih (hstep s u hs hu) hrun

end Sys2Proof.Machine
end

section
/-! PROOFS. The rules of the state about all instructions (spec/10_state.md): which registers and flags an instruction writes,
and which it reads. -/

namespace Sys2Proof.Machine

/-! ## Frames -/

/-- A flag outside the spec's list for the instruction keeps its value (R38). -/
theorem exec_sameFlagsBut {i : Instr} {s t : State} (h : exec i s = .next t) : SameFlagsBut (writtenFlags i) s t := by
  intro x hx
  cases i with
  | nop | mvlnk | j | jlnk | out | mv | st =>
    cases h
    rfl
  | set => obtain ⟨v, -, rfl⟩ | ⟨-, rfl⟩ := exec_set_cases h <;> rfl
  | jcnd => obtain ⟨-, rfl⟩ | ⟨-, rfl⟩ := exec_jcnd_cases h <;> rfl
  | jlnkcnd => obtain ⟨-, rfl⟩ | ⟨-, rfl⟩ := exec_jlnkcnd_cases h <;> rfl
  | inp | lshft | rshft | and | ld =>
    have hx : x ≠ .z ∧ x ≠ .n := by simpa [writtenFlags] using hx
    cases h
    simp [State.advance_eq, hx]
  | inc | dec | add | sub =>
    have hx : x ≠ .c ∧ x ≠ .z ∧ x ≠ .n := by simpa [writtenFlags] using hx
    cases h
    simp [State.advance_eq, hx]

/-- A register other than the spec's destination of the instruction keeps its value (R33). -/
theorem exec_reg_of_not_written {i : Instr} {s t : State} {q : Reg} (h : exec i s = .next t)
    (hw : writtenReg i ≠ some q) : t.reg q = s.reg q := by
  have hne : ∀ d, writtenReg i = some d → q ≠ d := fun d hd e => hw (e ▸ hd)
  cases i with
  | nop | j | jlnk | out | st =>
    cases h
    rfl
  | jcnd => obtain ⟨-, rfl⟩ | ⟨-, rfl⟩ := exec_jcnd_cases h <;> rfl
  | jlnkcnd => obtain ⟨-, rfl⟩ | ⟨-, rfl⟩ := exec_jlnkcnd_cases h <;> rfl
  | set =>
    obtain ⟨v, -, rfl⟩ | ⟨-, rfl⟩ := exec_set_cases h
    · simp [hne _ rfl]
    · rfl
  | inc | dec | mvlnk | inp | lshft | rshft | and | mv | add | sub | ld =>
    cases h
    simp [State.advance_eq, hne _ rfl]

/-! ## Non-interference -/

/-- An instruction that neither reads nor writes a register carries a change of it through (R33). -/
theorem exec_setReg_kept {i : Instr} {s t : State} {q : Reg} (v : Byte) (h : exec i s = .next t)
    (hr : q ∉ readRegs i) (hw : writtenReg i ≠ some q) : exec i (s.setReg q v) = .next (t.setReg q v) := by
  have hread : ∀ p ∈ readRegs i, p ≠ q := fun p hp e => hr (e ▸ hp)
  have hne : ∀ d, writtenReg i = some d → q ≠ d := fun d hd e => hw (e ▸ hd)
  cases i with
  | set r =>
    obtain ⟨w, hp, rfl⟩ | ⟨hp, rfl⟩ := exec_set_cases h
    · simp [exec_set_some r (s.setReg q v) w hp, State.setReg_comm _ q _ _ _ (hne _ rfl)]
    · simp [exec_set_none r (s.setReg q v) hp]
  | jcnd cnd r =>
    obtain ⟨hc, rfl⟩ | ⟨hc, rfl⟩ := exec_jcnd_cases h
    · simp [exec_jcnd_taken r cnd (s.setReg q v) hc, hread r (by simp [readRegs])]
    · simp [exec_jcnd_not_taken r cnd (s.setReg q v) hc]
  | jlnkcnd cnd r =>
    obtain ⟨hc, rfl⟩ | ⟨hc, rfl⟩ := exec_jlnkcnd_cases h
    · simp [exec_jlnkcnd_taken r cnd (s.setReg q v) hc, hread r (by simp [readRegs])]
    · simp [exec_jlnkcnd_not_taken r cnd (s.setReg q v) hc]
  | nop | j | jlnk | out | st =>
    simp only [readRegs, List.forall_mem_cons, List.not_mem_nil] at hread
    cases h
    simp [State.advance_eq, State.jumpReg_eq, hread]
  | inc | dec | mvlnk | inp | lshft | rshft | and | mv | add | sub | ld =>
    simp only [readRegs, List.forall_mem_cons, List.not_mem_nil] at hread
    cases h
    simp [State.advance_eq, hread, State.setReg_comm _ q _ _ _ (hne _ rfl)]

/-- An instruction that overwrites a register without reading it, and completes, loses a change of it (R33). -/
theorem exec_setReg_overwritten {i : Instr} {s t : State} {q : Reg} (v : Byte) (h : exec i s = .next t)
    (hr : q ∉ readRegs i) (hw : writtenReg i = some q) (hm : t.mode = .running) : exec i (s.setReg q v) = .next t := by
  cases i with
  | nop | j | jlnk | out | jcnd | jlnkcnd | st => cases hw
  | inc | dec | lshft | rshft | and | add | sub =>
    cases hw
    simp [readRegs] at hr
  | set =>
    cases hw
    obtain ⟨w, hp, rfl⟩ | ⟨hp, rfl⟩ := exec_set_cases h
    · simp [exec_set_some q (s.setReg q v) w hp, State.setReg_setReg]
    · cases hm
  | mvlnk | inp | mv | ld =>
    have hread : ∀ p ∈ readRegs _, p ≠ q := fun p hp e => hr (e ▸ hp)
    simp only [readRegs, List.forall_mem_cons, List.not_mem_nil] at hread
    cases hw
    cases h
    simp [State.advance_eq, hread, State.setReg_setReg]

/-- The halt of an instruction carries a change of a register through, whether the instruction writes it or not (R168). -/
theorem exec_setReg_halted {i : Instr} {s t : State} (q : Reg) (v : Byte) (h : exec i s = .next t)
    (hs : s.mode = .running) (ht : t.mode ≠ .running) : exec i (s.setReg q v) = .next (t.setReg q v) := by
  obtain ⟨t', h', -, -, hmode | ⟨r, rfl, hpc, rfl⟩⟩ := exec_next i s
  · cases h'.symm.trans h
    exact absurd (hmode.trans hs) ht
  · cases h'.symm.trans h
    exact exec_set_none r (s.setReg q v) ((s.progRead_none _).mpr hpc)

/-- An instruction that neither reads flags nor writes a flag carries a change of it through (R39). -/
theorem exec_setFlag_kept {i : Instr} {s t : State} {x : Cond} (b : Bool) (h : exec i s = .next t)
    (hr : readsFlag i = false) (hx : x ∉ writtenFlags i) : exec i (s.setFlag x b) = .next (t.setFlag x b) := by
  cases i with
  | jcnd | jlnkcnd => cases hr
  | set r =>
    obtain ⟨w, hp, rfl⟩ | ⟨hp, rfl⟩ := exec_set_cases h
    · simp [exec_set_some r (s.setFlag x b) w hp]
    · simp [exec_set_none r (s.setFlag x b) hp]
  | nop | mvlnk | j | jlnk | out | mv | st =>
    cases h
    simp [State.advance_eq, State.jumpReg_eq]
  | inp | lshft | rshft | and | ld =>
    rw [writtenFlags] at hx
    cases h
    simp [State.advance_eq, State.setFlag_setZN_of_not_mem _ x b _ _ hx]
  | inc | dec | add | sub =>
    rw [writtenFlags] at hx
    cases h
    simp [State.advance_eq, State.setFlag_setZNC_of_not_mem _ x b _ _ _ hx]

/-- An instruction that writes a flag loses a change of it (R38, R39). -/
theorem exec_setFlag_overwritten {i : Instr} {s t : State} {x : Cond} (b : Bool) (h : exec i s = .next t)
    (hx : x ∈ writtenFlags i) : exec i (s.setFlag x b) = .next t := by
  cases i with
  | nop | mvlnk | j | jlnk | out | set | mv | jcnd | jlnkcnd | st => cases hx
  | inp | lshft | rshft | and | ld =>
    rw [writtenFlags] at hx
    cases h
    simp [State.advance_eq, State.setFlag_setZN_of_mem _ x b _ _ hx]
  | inc | dec | add | sub =>
    rw [writtenFlags] at hx
    cases h
    simp [State.advance_eq, State.setFlag_setZNC_of_mem _ x b _ _ _ hx]

/-! ## The flag V (R37) -/

theorem overflow_not_mem_writtenFlags (i : Instr) : Cond.v ∉ writtenFlags i := by cases i <;> simp [writtenFlags]

/-- Every step keeps V, as its instruction does; halting writes no flag. -/
theorem step_flag_overflow {s t : State} (h : step s = .next t) : t.flag .v = s.flag .v := by
  obtain ⟨f, -, rfl⟩ | ⟨-, -, rfl⟩ | ⟨-, w, -, hexec⟩ := step_next h
  · rfl
  · rfl
  · exact exec_sameFlagsBut hexec .v (overflow_not_mem_writtenFlags _)

/-! ## The obligations -/

/-- Settles O20: V is outside the flags that any instruction writes, so every run keeps its value at `Reset`, and a
condition V is the one not taken. -/
theorem overflowFlagStaysClear : Obligations.OverflowFlagStaysClear := by
  refine ⟨fun i s t h => exec_sameFlagsBut h .v (overflow_not_mem_writtenFlags i), fun P I n s h => ?_, fun r s hv => ?_⟩
  · have hstep : ∀ s t : State, s.flag .v = false → step s = .next t → t.flag .v = false :=
      fun _ _ hs ht => (step_flag_overflow ht).trans hs
    exact run_induction hstep n (State.flag_loaded .v P I) h
  · exact ⟨exec_jcnd_not_taken r .v s hv, exec_jlnkcnd_not_taken r .v s hv⟩

/-- Settles O21: the number by the sixteen values of the flag register, the bits by the four condition codes. -/
theorem flagRegisterNumber : Obligations.FlagRegisterNumber := by
  intro s
  have hnumber : ∀ f : BitVec 4, f.toNat = 8 * (f.getLsbD 3).toNat + 4 * (f.getLsbD 2).toNat +
      2 * (f.getLsbD 1).toNat + (f.getLsbD 0).toNat := by decide
  exact ⟨hnumber s.flags, fun x => by cases x <;> rfl⟩

/-- Settles O23, by the frame of the registers. -/
theorem onlyTheNamedRegisterIsWritten : Obligations.OnlyTheNamedRegisterIsWritten := by
  intro i s t h q hq
  exact exec_reg_of_not_written h (by simpa using hq)

/-- Settles O24: the changed register is overwritten, or kept because the instruction does not write it, or kept because
the instruction halts. -/
theorem unreadRegisterDoesNotMatter : Obligations.UnreadRegisterDoesNotMatter := by
  intro i s t q v hs hr h
  split
  next hc => exact exec_setReg_overwritten v h hr hc.1 hc.2
  next hc =>
    by_cases hw : writtenReg i = some q
    · exact exec_setReg_halted q v h hs fun ht => hc ⟨hw, ht⟩
    · exact exec_setReg_kept v h hr hw

/-- Settles O25: the changed flag is overwritten, or kept because the instruction does not write it. -/
theorem onlyConditionalsReadFlags : Obligations.OnlyConditionalsReadFlags := by
  intro i s t x b hr h
  split
  next hx => exact exec_setFlag_overwritten b h hx
  next hx => exact exec_setFlag_kept b h hr hx

end Sys2Proof.Machine
end

section
/-! PROOFS. Data memory along a run, and what no run changes: program memory and the input (spec/20_memory.md). -/

namespace Sys2Proof.Machine

/-! ## The instruction fetched and its store -/

theorem State.fetched_of_running {s : State} (h : s.mode = .running) : s.fetched = (s.progRead s.pc).map decode := by
  simp only [State.fetched, h]

theorem State.fetched_of_halted {s : State} {f : Fault} (h : s.mode = .halted f) : s.fetched = none := by
  simp only [State.fetched, h]

theorem State.nextStore_of_fetched_st {s : State} {ofs : Offset} {rs rb : Reg} (h : s.fetched = some (.st ofs rs rb)) :
    s.nextStore = some (effAddr (s.reg rb) ofs, s.reg rs) := by
  simp only [State.nextStore, h]

theorem State.nextStore_of_fetched_ne_st {s : State} (h : ∀ ofs rs rb, s.fetched ≠ some (.st ofs rs rb)) :
    s.nextStore = none := by
  unfold State.nextStore
  split
  next ofs rs rb hf => exact absurd hf (h ofs rs rb)
  next => rfl

theorem State.nextStore_of_not_fetched {s : State} (h : s.fetched = none) : s.nextStore = none :=
  State.nextStore_of_fetched_ne_st fun _ _ _ hst => by simp [h] at hst

/-! ## The value a store log leaves -/

@[simp] theorem lastStored_nil (a init : Byte) : lastStored [] a init = init := rfl

@[simp] theorem lastStored_singleton (b v a init : Byte) :
    lastStored [(b, v)] a init = if b = a then v else init := rfl

/-- A later log is read from the value that the earlier one leaves. -/
theorem lastStored_append (l k : List (Byte × Byte)) (a init : Byte) :
    lastStored (l ++ k) a init = lastStored k a (lastStored l a init) := List.foldl_append

theorem storeLog_succ (n : Nat) {s t : State} (h : step s = .next t) :
    storeLog (n + 1) s = s.nextStore.toList ++ storeLog n t := by
  simp only [storeLog, h]

/-! ## Steps and runs -/

/-- No instruction but `st` writes data memory (R60). -/
theorem exec_sameMemory {i : Instr} {s t : State} (h : exec i s = .next t) (hi : ∀ ofs rs rb, i ≠ .st ofs rs rb) :
    SameMemory s t := by
  intro a
  cases i with
  | st ofs rs rb => exact absurd rfl (hi ofs rs rb)
  | set => obtain ⟨v, -, rfl⟩ | ⟨-, rfl⟩ := exec_set_cases h <;> rfl
  | jcnd => obtain ⟨-, rfl⟩ | ⟨-, rfl⟩ := exec_jcnd_cases h <;> rfl
  | jlnkcnd => obtain ⟨-, rfl⟩ | ⟨-, rfl⟩ := exec_jlnkcnd_cases h <;> rfl
  | _ =>
    cases h
    rfl

/-- Executing the fetched instruction leaves in data memory its store, if it makes one (R60, R252). -/
theorem exec_fetched_memRead {i : Instr} {s t : State} (hf : s.fetched = some i) (h : exec i s = .next t) (a : Byte) :
    t.memRead a = lastStored s.nextStore.toList a (s.memRead a) := by
  by_cases hi : ∃ ofs rs rb, i = .st ofs rs rb
  · obtain ⟨ofs, rs, rb, rfl⟩ := hi
    rw [exec_st] at h
    cases h
    simp [State.nextStore_of_fetched_st hf, eq_comm]
  · have hi : ∀ ofs rs rb, i ≠ .st ofs rs rb := fun ofs rs rb e => hi ⟨ofs, rs, rb, e⟩
    have hnone : s.nextStore = none := State.nextStore_of_fetched_ne_st fun ofs rs rb e =>
      hi ofs rs rb (Option.some.inj (hf.symm.trans e))
    simpa [hnone] using exec_sameMemory h hi a

/-- A step leaves in data memory the store it makes, if it makes one, and every other byte as it was. -/
theorem step_memRead {s t : State} (h : step s = .next t) (a : Byte) :
    t.memRead a = lastStored s.nextStore.toList a (s.memRead a) := by
  obtain ⟨f, hm, rfl⟩ | ⟨hm, hpc, rfl⟩ | ⟨hm, w, hw, hexec⟩ := step_next h
  · simp [State.nextStore_of_not_fetched (State.fetched_of_halted hm)]
  · have hf : s.fetched = none := by simp [State.fetched_of_running hm, (s.progRead_none s.pc).mpr hpc]
    simp [State.nextStore_of_not_fetched hf]
  · exact exec_fetched_memRead (by simp [State.fetched_of_running hm, hw]) hexec a

/-- A run leaves at every address what its store log leaves there, over the bytes it started from. -/
theorem run_memRead (n : Nat) {s t : State} (h : Host.Core.run core n s = .next t) (a : Byte) :
    t.memRead a = lastStored (storeLog n s) a (s.memRead a) := by
  induction n generalizing s with
  | zero =>
    cases h
    rfl
  | succ n ih =>
    obtain ⟨u, hu, hrun⟩ := run_succ n s t h
    rw [ih hrun, step_memRead hu, storeLog_succ n hu, lastStored_append]

/-- A load reads its register from data memory at the address formed from the old base (R251). -/
theorem exec_ld_reg (ofs : Offset) (rd rb : Reg) (s : State) :
    ∃ t, exec (.ld ofs rd rb) s = .next t ∧ t.reg rd = s.memRead (effAddr (s.reg rb) ofs) :=
  ⟨_, exec_ld rd rb ofs s, by simp⟩

/-- A step keeps program and input: halting writes the mode alone, and every instruction keeps both. -/
theorem step_prog_inbuf {s t : State} (h : step s = .next t) : t.prog = s.prog ∧ t.inbuf = s.inbuf := by
  obtain ⟨f, -, rfl⟩ | ⟨-, -, rfl⟩ | ⟨-, w, -, hexec⟩ := step_next h
  · exact ⟨rfl, rfl⟩
  · exact ⟨rfl, rfl⟩
  · obtain ⟨t', h', hprog, hinbuf, -⟩ := exec_next (decode w) s
    cases h'.symm.trans hexec
    exact ⟨hprog, hinbuf⟩

/-! ## The obligations -/

/-- Settles O18: the run leaves at the load's address what its store log leaves there, over the 0 of `Reset`. -/
theorem loadReturnsLastStore : Obligations.LoadReturnsLastStore := by
  intro P I n s h ofs rd rb
  obtain ⟨t, ht, hreg⟩ := exec_ld_reg ofs rd rb s
  exact ⟨t, ht, hreg.trans (run_memRead n h _)⟩

/-- Settles O27: every step keeps both, so every run does. -/
theorem runsKeepProgramAndInput : Obligations.RunsKeepProgramAndInput := by
  intro n s t h
  have hstep : ∀ u v : State, u.prog = s.prog ∧ u.inbuf = s.inbuf → step u = .next v →
      v.prog = s.prog ∧ v.inbuf = s.inbuf := by
    intro u v ⟨hprog, hinbuf⟩ huv
    obtain ⟨hp, hi⟩ := step_prog_inbuf huv
    exact ⟨hp.trans hprog, hi.trans hinbuf⟩
  exact run_induction hstep n ⟨rfl, rfl⟩ h

end Sys2Proof.Machine
end

section
/-! PROOFS. The codec (spec/30_encoding.md sections 2 and 3): a word is the sum of its 2-bit fields, so decode and encode are
mutually inverse; the length of an instruction; word strings. -/

namespace Sys2Proof

/-! ## The fields of a word -/

/-- A field of a word, as a number (R15). -/
theorem toNat_extractLsb' (w : Byte) (lo n : Nat) : (w.extractLsb' lo n).toNat = w.toNat / 2 ^ lo % 2 ^ n := by
  rw [BitVec.extractLsb'_toNat, Nat.shiftRight_eq_div_pow]

theorem toNat_field2 (w : Byte) (lo : Nat) : (field2 w lo).toNat = w.toNat / 2 ^ lo % 4 := toNat_extractLsb' w lo 2

theorem field2_eq {w : Byte} {lo : Nat} {a : BitVec 2} (h : w.toNat / 2 ^ lo % 4 = a.toNat) : field2 w lo = a :=
  BitVec.eq_of_toNat_eq ((toNat_field2 w lo).trans h)

/-! ## The sums of R101: no carry, and each field stands at its place -/

section
variable {base : Nat} (o : Offset) (a b : BitVec 2) (r q : Reg)

theorem toNat_enc1 (h : base ≤ 252) : (enc1 base r).toNat = base + r.toBits.toNat := by
  rw [enc1, BitVec.toNat_ofNat]
  omega

theorem toNat_enc2 (h : base ≤ 240) : (enc2 base a b).toNat = base + 4 * a.toNat + b.toNat := by
  rw [enc2, BitVec.toNat_ofNat]
  omega

theorem toNat_enc3 (h : base ≤ 192) :
    (enc3 base o r q).toNat = base + 16 * o.toNat + 4 * r.toBits.toNat + q.toBits.toNat := by
  rw [enc3, BitVec.toNat_ofNat]
  omega

theorem fields_enc1 (h : base ≤ 252) (h4 : base % 4 = 0) :
    ((enc1 base r).extractLsb' 6 2).toNat = base / 64 ∧ ((enc1 base r).extractLsb' 2 4).toNat = base / 4 % 16 ∧
    field2 (enc1 base r) 0 = r.toBits := by
  refine ⟨?_, ?_, field2_eq ?_⟩ <;> simp only [toNat_extractLsb', toNat_enc1 r h] <;> omega

theorem fields_enc2 (h : base ≤ 240) (h16 : base % 16 = 0) :
    ((enc2 base a b).extractLsb' 6 2).toNat = base / 64 ∧ ((enc2 base a b).extractLsb' 4 2).toNat = base / 16 % 4 ∧
    field2 (enc2 base a b) 2 = a ∧ field2 (enc2 base a b) 0 = b := by
  refine ⟨?_, ?_, field2_eq ?_, field2_eq ?_⟩ <;> simp only [toNat_extractLsb', toNat_enc2 a b h] <;> omega

theorem fields_enc3 (h : base ≤ 192) (h64 : base % 64 = 0) :
    ((enc3 base o r q).extractLsb' 6 2).toNat = base / 64 ∧ field2 (enc3 base o r q) 4 = o ∧
    field2 (enc3 base o r q) 2 = r.toBits ∧ field2 (enc3 base o r q) 0 = q.toBits := by
  refine ⟨?_, field2_eq ?_, field2_eq ?_, field2_eq ?_⟩ <;> simp only [toNat_extractLsb', toNat_enc3 o r q h] <;> omega

end

section
variable {w : Byte} {base : Nat}

/-- A word is the sum of its low field and the rest. -/
theorem enc1_fields (h : w.toNat / 4 * 4 = base) : enc1 base (Reg.ofBits (field2 w 0)) = w := by
  apply BitVec.eq_of_toNat_eq
  rw [toNat_enc1 _ (by omega), Reg.toBits_ofBits, toNat_field2]
  omega

/-- A word is the sum of its two low fields and the rest. -/
theorem enc2_fields (h : w.toNat / 16 * 16 = base) : enc2 base (field2 w 2) (field2 w 0) = w := by
  apply BitVec.eq_of_toNat_eq
  rw [toNat_enc2 _ _ (by omega), toNat_field2, toNat_field2]
  omega

/-- A word is the sum of its three low fields and the rest. -/
theorem enc3_fields (h : w.toNat / 64 * 64 = base) :
    enc3 base (field2 w 4) (Reg.ofBits (field2 w 2)) (Reg.ofBits (field2 w 0)) = w := by
  apply BitVec.eq_of_toNat_eq
  rw [toNat_enc3 _ _ _ (by omega), Reg.toBits_ofBits, Reg.toBits_ofBits, toNat_field2, toNat_field2, toNat_field2]
  omega

end

/-! ## The round trip (R102) -/

/-- The decoder finds the fields that the encoder added up. In `mv` the destination is a part of the opcode field, so that
case is by the value of its registers. -/
@[simp] theorem decode_encode (i : Instr) : decode (encode i) = i := by
  cases i with
  | mv rd rs => cases rd <;> cases rs <;> rfl
  | add | sub | jcnd | jlnkcnd => simp [-BitVec.extractLsb'_toNat, encode, decode, fields_enc2]
  | ld | st => simp [-BitVec.extractLsb'_toNat, encode, decode, fields_enc3]
  | _ => simp [-BitVec.extractLsb'_toNat, encode, decode, fields_enc1]

/-- In each branch of the decoder, the fields it tested are the base that the encoder adds to the operands. -/
@[simp] theorem encode_decode (w : Byte) : encode (decode w) = w := by
  simp only [decode, toNat_extractLsb']
  split
  · split
    case h_13 =>
      simp only [encode, Reg.toBits_ofBits, imp_false] at *
      exact enc2_fields (by omega)
    all_goals exact enc1_fields (by omega)
  · split
    all_goals
      simp only [encode, Reg.toBits_ofBits, Cond.toBits_ofBits, imp_false] at *
      exact enc2_fields (by omega)
  · exact enc3_fields (by omega)
  · simp only [imp_false] at *
    exact enc3_fields (by omega)

/-! ## The length of an instruction (R103) -/

/-- A word of the row of `set` decodes to a `set`: no other row has its bits. -/
theorem decode_set_of_row {w : Byte} (h : w &&& 0xFC#8 = 0x2C#8) : ∃ r, decode w = .set r := by
  have hrow := opRow_unique w (.set .r0) h
  cases hd : decode w with
  | set r => exact ⟨r, rfl⟩
  | _ => simp [hd, opRow] at hrow

/-! ## Word strings (R105) -/

theorem decodeString_of_length {b : BitString} (h : b.length = 8) :
    decodeString b = .ok (decode (BitVec.ofNat 8 b.toNat)) := by
  simp [decodeString, BitString.toWord_ok b (by simp [BitString.wf, h]), Except.map]

theorem decodeString_of_length_ne {b : BitString} (h : b.length ≠ 8) : decodeString b = .error .invalidEncoding := by
  simp [decodeString, BitString.toWord_error b (by simp [BitString.wf, h]), Except.map]

@[simp] theorem BitString.length_ofWord (w : Byte) : (BitString.ofWord w).length = 8 := rfl

/-- The number that the characters of a word write is the word: it is the sum of its bits. -/
@[simp] theorem BitString.toNat_ofWord (w : Byte) : (BitString.ofWord w).toNat = w.toNat := by
  simp only [BitString.toNat, BitString.ofWord, List.foldl, BitVec.getLsbD, Nat.toNat_testBit]
  omega

/-- Character `7 - k` of a word string is bit `k` of its word. -/
theorem BitString.ofWord_getElem? (w : Byte) {k : Nat} (hk : k < 8) :
    (BitString.ofWord w)[7 - k]? = some (w.getLsbD k) := by
  interval_cases k <;> rfl

@[simp] theorem decodeString_encodeString (i : Instr) : decodeString (encodeString i) = .ok i := by
  simp [encodeString, decodeString_of_length (BitString.length_ofWord _)]

/-! ## The obligations -/

/-- Settles O1: the fields that one direction adds up are the fields that the other one reads. -/
theorem decodeEncodeRoundTrip : Obligations.DecodeEncodeRoundTrip := ⟨decode_encode, encode_decode⟩

/-- Settles O3: a word is in the row of `set` exactly when it decodes to a `set`. -/
theorem lengthTellsSet : Obligations.LengthTellsSet := by
  intro w
  by_cases h : w &&& 0xFC#8 = 0x2C#8
  · exact .inl ⟨if_pos h, decode_set_of_row h⟩
  · exact .inr ⟨if_neg h, fun r hd => h (by simpa [hd, opRow] using decode_row w)⟩

/-- Settles O4: the length alone decides whether a string has a word, and the string of a word has the word's own bits. -/
theorem wordStringCodec : Obligations.WordStringCodec :=
  ⟨fun _ => decodeString_of_length_ne, fun _ h => ⟨_, decodeString_of_length h⟩,
    fun i => ⟨BitString.length_ofWord _, decodeString_encodeString i⟩, fun i _ => BitString.ofWord_getElem? (encode i)⟩

end Sys2Proof
end

section
/-! PROOFS. The toolchain's assembler (spec/30_encoding.md section 6): what a line yields, what error-free lines assemble to,
and labels that no entry defines. -/

namespace Sys2Proof

/-! ## Well-formed programs (R94) -/

theorem Program.wf_set_imm (r : Reg) (v : Byte) (p : List ProgEntry) :
    Program.wf (.instr (.set r) :: .imm v :: p) = Program.wf p := by
  rw [Program.wf]

theorem Program.wf_instr {i : Instr} (hi : ∀ r, i ≠ .set r) (p : List ProgEntry) :
    Program.wf (.instr i :: p) = Program.wf p := by
  cases i with
  | set r => exact absurd rfl (hi r)
  | _ => simp [Program.wf]

end Sys2Proof

namespace Sys2Proof.Asm

/-! ## What a line yields (R111, R119) -/

/-- The entries of an instruction line: one instruction other than `set`, or a `set` and its immediate (R119). -/
inductive InstrLine : List Entry → Prop
  | single (i : Instr) (hi : ∀ r, i ≠ .set r) : InstrLine [.instr i]
  | set (r : Reg) (m : Imm) : InstrLine [.instr (.set r), .imm m]

theorem bind_eq_ok {ε α β : Type} {x : Except ε α} {f : α → Except ε β} {b : β} (h : x >>= f = .ok b) :
    ∃ a, x = .ok a ∧ f a = .ok b := by
  cases x with
  | error e => cases h
  | ok a => exact ⟨a, rfl, h⟩

/-- `set` is none of the mnemonics that take one register. -/
theorem regOp?_ne_set {m : List Char} {f : Reg → Instr} (h : regOp? m = some f) (r q : Reg) : f r ≠ .set q := by
  unfold regOp? at h
  split at h <;> cases h <;> simp

/-- Of the mnemonics that take two operands, `set` alone yields a second entry. -/
theorem pairOp?_instrLine {m x y : List Char} {f : List Char → List Char → Except ParseError (List Entry)}
    {es : List Entry} (h : pairOp? m = some f) (hf : f x y = .ok es) : InstrLine es := by
  unfold pairOp? at h
  dsimp only at h
  split at h <;> cases h
  all_goals
    obtain ⟨a, -, hf⟩ := bind_eq_ok hf
    obtain ⟨b, -, hf⟩ := bind_eq_ok hf
    cases hf
  · exact .set a b
  all_goals exact .single _ (by simp)

theorem parseInstr_instrLine {m : List Char} {ops : List (List Char)} {es : List Entry}
    (h : parseInstr m ops = .ok es) : InstrLine es := by
  unfold parseInstr at h
  split at h
  next => -- `nop`
    split at h <;> cases h
    exact .single _ (by simp)
  next =>
    split at h
    next f hf => -- one register
      split at h
      · split at h <;> cases h
        exact .single _ (regOp?_ne_set hf _)
      · cases h
    next =>
      split at h
      next f hf => -- two operands
        split at h
        · exact pairOp?_instrLine hf h
        · cases h
      next => cases h

theorem parseLine_cases {l : List Char} {es : List Entry} (h : parseLine l = .ok es) :
    es = [] ∨ (∃ name, es = [.labelDef name]) ∨ InstrLine es := by
  unfold parseLine at h
  dsimp only at h
  split at h
  · exact .inl (Except.ok.inj h).symm
  · exact .inl (Except.ok.inj h).symm
  · split at h
    next name _ => exact .inr (.inl ⟨name, (Except.ok.inj h).symm⟩)
    next => exact .inr (.inr (parseInstr_instrLine h))

/-- When no line has an error, the first line's entries stand before those of the rest (R120). -/
theorem parseLines_cons {n : Nat} {l : List Char} {src : List (List Char)} {es : List Entry}
    (h : parseLines n (l :: src) = (es, [])) :
    ∃ e rest, parseLine l = .ok e ∧ parseLines (n + 1) src = (rest, []) ∧ es = e ++ rest := by
  rw [parseLines] at h
  dsimp only at h
  split at h
  next e he =>
    obtain ⟨hes, herrs⟩ := Prod.mk.inj h
    exact ⟨e, _, he, Prod.ext rfl herrs, hes.symm⟩
  next => cases h

/-! ## Pass 2 (R122, R123) -/

section
variable {table : List (List Char × Nat)} {es rest : List Entry} {p : List ProgEntry} {name : List Char}

theorem assemble_ok (h : assemble es = .ok p) : resolve (labels 0 es) es = .ok p := by
  rw [assemble] at h
  split at h
  · cases h
  · exact h

/-- The entries of one instruction line become words that keep a program well formed. -/
theorem InstrLine.resolve_wf {e : List Entry} (he : InstrLine e) (h : resolve table (e ++ rest) = .ok p) :
    ∃ q, resolve table rest = .ok q ∧ Program.wf p = Program.wf q := by
  cases he with
  | single i hi =>
    obtain ⟨q, hq, rfl⟩ := resolve_instr h
    exact ⟨q, hq, Program.wf_instr hi q⟩
  | set r m =>
    obtain ⟨p, hp, rfl⟩ := resolve_instr h
    obtain ⟨q, v, hq, rfl, -⟩ := resolve_imm hp
    exact ⟨q, hq, Program.wf_set_imm r v q⟩

/-- Whatever the table of labels, error-free lines resolve to a well-formed program. -/
theorem resolve_parseLines_wf {src : List (List Char)} {n : Nat} (hsrc : parseLines n src = (es, []))
    (h : resolve table es = .ok p) : Program.wf p = true := by
  induction src generalizing n es p with
  | nil =>
    cases hsrc
    cases h
    rfl
  | cons l src ih =>
    obtain ⟨e, rest, hl, hrest, rfl⟩ := parseLines_cons hsrc
    obtain rfl | ⟨name, rfl⟩ | he := parseLine_cases hl
    · exact ih hrest h
    · exact ih hrest h
    · obtain ⟨q, hq, hwf⟩ := he.resolve_wf h
      exact hwf.trans (ih hrest hq)

/-! ## Label references -/

/-- Pass 1 gives no slot to a name that no entry defines (R121). -/
theorem slot?_labels_of_not_mem (n : Nat) (h : Entry.labelDef name ∉ es) : slot? (labels n es) name = none := by
  induction es generalizing n with
  | nil => rfl
  | cons e es ih =>
    obtain ⟨he, hes⟩ := not_or.mp (mt List.mem_cons.mpr h)
    cases e with
    | instr i => exact ih (n + 1) hes
    | imm m => exact ih (n + 1) hes
    | labelDef k =>
      rw [labels, slot?, if_neg fun hk : k = name => he (hk ▸ rfl)]
      exact ih n hes

/-- What pass 2 resolves has a slot for every reference (R122). -/
theorem resolve_label_slot (h : resolve table es = .ok p) (hm : Entry.imm (.label name) ∈ es) :
    ∃ n, slot? table name = some n := by
  induction es generalizing p with
  | nil => cases hm
  | cons e es ih =>
    cases e with
    | instr i =>
      obtain ⟨q, hq, -⟩ := resolve_instr h
      exact ih hq (by simpa using hm)
    | labelDef k => exact ih h (by simpa using hm)
    | imm m =>
      obtain ⟨q, v, hq, -, hv⟩ := resolve_imm h
      obtain hm | hm := List.mem_cons.mp hm
      · cases hm
        obtain hv | ⟨k, n, hk, hn, -⟩ := hv
        · cases hv
        · cases hk
          exact ⟨n, hn⟩
      · exact ih hq hm

end

/-! ## The obligations -/

/-- Settles O53, by the kinds of lines. -/
theorem lineYieldsItsEntries : Obligations.LineYieldsItsEntries := by
  intro l es h
  obtain h | h | ⟨i, hi⟩ | ⟨r, m⟩ := parseLine_cases h
  · exact .inl h
  · exact .inr (.inl h)
  · exact .inr (.inr (.inl ⟨i, hi, rfl⟩))
  · exact .inr (.inr (.inr ⟨r, m, rfl⟩))

/-- Settles O55: an assembly without error has a slot for the reference, and pass 1 gives it none. -/
theorem missingLabelAborts : Obligations.MissingLabelAborts := by
  intro es name hm hdef
  cases h : assemble es with
  | error e => exact ⟨e, rfl⟩
  | ok p =>
    obtain ⟨n, hn⟩ := resolve_label_slot (assemble_ok h) hm
    cases (slot?_labels_of_not_mem 0 hdef).symm.trans hn

/-- Settles O56: the assembled program is its entries resolved, by induction over the lines. -/
theorem assembledProgramIsWellFormed : Obligations.AssembledProgramIsWellFormed :=
  fun _ _ _ hsrc h => resolve_parseLines_wf hsrc (assemble_ok h)

end Sys2Proof.Asm
end

section
/-! PROOFS. The execution cycle (spec/40_execution_cycle.md): fetch, decode and execute, a fetch past the end, and the default
advance of the pc. -/

namespace Sys2Proof.Machine

/-! ## The step of a running core -/

/-- The word at the pc exists: the instruction it decodes to is executed (R140). -/
theorem step_of_word {s : State} {w : Byte} (hm : s.mode = .running) (hw : s.progRead s.pc = some w) :
    step s = exec (decode w) s := by
  rw [step_of_running s hm, runFetched_some s w hw]

/-- The word at the pc does not exist: the core halts and nothing else changes (R141). -/
theorem step_past_end {s : State} (hm : s.mode = .running) (hpc : s.plen ≤ s.pc) :
    step s = .next (s.setMode (.halted (.outOfProgram s.pc))) := by
  rw [step_of_running s hm, runFetched_none s ((s.progRead_none s.pc).mpr hpc), raiseOutOfProgram_eq]

/-! ## The default control flow (R145) -/

theorem exec_pc_of_advancesByOne {i : Instr} {s t : State} (hi : advancesByOne i = true) (h : exec i s = .next t) :
    t.pc = s.pc + 1 := by
  cases i with
  | j | jlnk | set | jcnd | jlnkcnd => cases hi
  | _ =>
    cases h
    rfl

/-- Of all instructions `set` alone can halt the core, and it does not advance by one. -/
theorem exec_mode_of_advancesByOne {i : Instr} {s t : State} (hi : advancesByOne i = true) (h : exec i s = .next t) :
    t.mode = s.mode := by
  obtain ⟨t', h', -, -, hmode | ⟨r, rfl, -, -⟩⟩ := exec_next i s
  · cases h'.symm.trans h
    exact hmode
  · cases hi

/-! ## The obligations -/

/-- Settles O5: the step of a running core by its fetched word, which decodes to `i` when it is `encode i`. -/
theorem stepRunsDecodedInstruction : Obligations.StepRunsDecodedInstruction := by
  refine ⟨fun s i hm hw => ?_, fun s w => step_of_word⟩
  rw [step_of_word hm hw, decode_encode]

/-- Settles O6: a slot at or past `PLEN` holds no word to fetch. -/
theorem fetchPastEndHalts : Obligations.FetchPastEndHalts := fun _ => step_past_end

/-- Settles O30: the instruction leaves mode and program as they were, so the next fetch is at `pc + 1` in the same program,
past its end. -/
theorem defaultAdvanceDoesNotWrap : Obligations.DefaultAdvanceDoesNotWrap := by
  intro i s hi
  obtain ⟨t, h, hprog, -, -⟩ := exec_next i s
  have hpc : t.pc = s.pc + 1 := exec_pc_of_advancesByOne hi h
  refine ⟨t, h, hpc, fun hm hend => ?_⟩
  have hplen : t.plen = s.plen := congrArg List.length hprog
  have hstep := step_past_end ((exec_mode_of_advancesByOne hi h).trans hm) (by omega : t.plen ≤ t.pc)
  rwa [hpc] at hstep

end Sys2Proof.Machine
end

section
/-! SUPPORT. The 8-bit results and carries of the register instructions as numbers (spec/41_register_alu.md). -/

namespace Sys2Proof.Machine

variable (a b v : Byte)

@[simp] theorem toNat_incRes : (incRes v).toNat = (v.toNat + 1) % 256 := by simp [incRes]

@[simp] theorem toNat_decRes : (decRes v).toNat = (v.toNat + 255) % 256 := by simp [decRes]

@[simp] theorem toNat_lshftRes : (lshftRes v).toNat = v.toNat * 2 % 256 := by simp [lshftRes]

@[simp] theorem toNat_rshftRes : (rshftRes v).toNat = v.toNat / 2 := by
  have hv := v.isLt
  rw [rshftRes, BitVec.toNat_ofNat, Nat.mod_eq_of_lt (by omega)]

@[simp] theorem toNat_addRes : (addRes a b).toNat = (a.toNat + b.toNat) % 256 := by simp [addRes]

theorem toNat_subRes : ((subRes a b).toNat : Int) = ((a.toNat : Int) - b.toNat + 256) % 256 := by
  rw [subRes, BitVec.toNat_ofInt]
  omega

/-- The unbounded difference is negative exactly when the minuend is the smaller number (R171). -/
theorem subBorrow_eq_decide_lt : subBorrow a b = decide (a.toNat < b.toNat) :=
  decide_eq_decide.mpr (by omega)

/-- The destination of `and` is the register whose code is the next modulo 4 (R166). -/
theorem eq_nextReg {r k : Reg} (h : k.toBits.toNat = (r.toBits.toNat + 1) % 4) : k = nextReg r := by
  rw [nextReg, ← h, BitVec.ofNat_toNat, BitVec.setWidth_eq, Reg.ofBits_toBits]

end Sys2Proof.Machine
end

section
/-! SUPPORT. The frame of a register instruction, grown update by update from that of its register write. -/

namespace Sys2Proof.Machine

/-- A register write alone keeps everything but its register, whatever flags a frame leaves free. -/
theorem registerFrame_setReg (s : State) (r : Reg) (v : Byte) (cs : List Cond) :
    RegisterFrame [r] cs s (s.setReg r v) := by
  have hregs : SameRegsBut [r] s (s.setReg r v) := fun q hq => by
    rw [State.reg_setReg, if_neg (by simpa using hq)]
  exact ⟨hregs, fun _ _ => rfl, rfl, fun _ => rfl, ⟨rfl, rfl⟩, rfl, rfl, rfl⟩

variable {ds : List Reg} {cs : List Cond} {s t : State}

theorem RegisterFrame.setFlag {x : Cond} (h : RegisterFrame ds cs s t) (hx : x ∈ cs) (b : Bool) :
    RegisterFrame ds cs s (t.setFlag x b) := by
  obtain ⟨hregs, hflags, hrest⟩ := h
  refine ⟨hregs, fun y hy => ?_, hrest⟩
  have hne : y ≠ x := fun e => hy (e ▸ hx)
  rw [State.flag_setFlag, if_neg hne, hflags y hy]

theorem RegisterFrame.setZN (h : RegisterFrame ds cs s t) (hz : .z ∈ cs) (hn : .n ∈ cs) (z n : Bool) :
    RegisterFrame ds cs s (t.setZN z n) := (h.setFlag hz z).setFlag hn n

theorem RegisterFrame.setZNC (h : RegisterFrame ds cs s t) (hz : .z ∈ cs) (hn : .n ∈ cs) (hc : .c ∈ cs)
    (z n c : Bool) : RegisterFrame ds cs s (t.setZNC z n c) := (h.setZN hz hn z n).setFlag hc c

theorem RegisterFrame.setPc (h : RegisterFrame ds cs s t) (k : Nat) : RegisterFrame ds cs s (t.setPc k) := h

end Sys2Proof.Machine
end

section
/-! PROOFS. The register and ALU instructions (spec/41_register_alu.md). They come in two shapes, with Z, N and C written or
with Z and N alone; what can be read after each shape is said once. -/

namespace Sys2Proof.Machine

variable {i : Instr} {s : State} {r : Reg} {v : Byte} {z n c : Bool}

/-- After a result with Z and N: everything outside the register, these two flags and the pc is as before. -/
theorem exec_reads_of_setZN (h : exec i s = .next (((s.setReg r v).setZN z n).setPc (s.pc + 1))) :
    ∃ t : State, exec i s = .next t ∧ t.reg r = v ∧ t.flag .z = z ∧ t.flag .n = n ∧
      t.pc = s.pc + 1 ∧ RegisterFrame [r] [.z, .n] s t :=
  ⟨_, h, by simp, by simp, by simp, rfl,
    ((registerFrame_setReg s r v _).setZN (by simp) (by simp) z n).setPc _⟩

/-- After a result with Z, N and C: everything outside the register, these three flags and the pc is as before. -/
theorem exec_reads_of_setZNC (h : exec i s = .next (((s.setReg r v).setZNC z n c).setPc (s.pc + 1))) :
    ∃ t : State, exec i s = .next t ∧ t.reg r = v ∧ t.flag .z = z ∧ t.flag .n = n ∧ t.flag .c = c ∧
      t.pc = s.pc + 1 ∧ RegisterFrame [r] [.c, .z, .n] s t :=
  ⟨_, h, by simp, by simp, by simp, by simp, rfl,
    ((registerFrame_setReg s r v _).setZNC (by simp) (by simp) (by simp) z n c).setPc _⟩

/-! ## The obligations -/

/-- Settles O32: the rule of `nop` sets the pc alone. -/
theorem nopResult : Obligations.NopResult := exec_nop

/-- Settles O33: the shape with Z, N and C, where C is Z. -/
theorem incResult : Obligations.IncResult := by
  intro r s
  obtain ⟨t, h, hres, hz, hn, hc, hframe⟩ := exec_reads_of_setZNC (exec_inc r s)
  rw [← hres] at hz hn hc
  exact ⟨t, h, by rw [hres, toNat_incRes], hz, hn, hc, hframe⟩

/-- Settles O34: the shape with Z, N and C, where C tells a result of 255. -/
theorem decResult : Obligations.DecResult := by
  intro r s
  obtain ⟨t, h, hres, hz, hn, hc, hframe⟩ := exec_reads_of_setZNC (exec_dec r s)
  rw [← hres] at hz hn hc
  exact ⟨t, h, by rw [hres, toNat_decRes], hz, hn, hc, hframe⟩

/-- Settles O35: the shape with Z and N, which keeps C. -/
theorem lshftResult : Obligations.LshftResult := by
  intro r s
  obtain ⟨t, h, hres, hz, hn, hframe⟩ := exec_reads_of_setZN (exec_lshft r s)
  rw [← hres] at hz hn
  exact ⟨t, h, by rw [hres, toNat_lshftRes], hz, hn, hframe⟩

/-- Settles O36: the shape with Z and N, which keeps C. -/
theorem rshftResult : Obligations.RshftResult := by
  intro r s
  obtain ⟨t, h, hres, hz, hn, hframe⟩ := exec_reads_of_setZN (exec_rshft r s)
  rw [← hres] at hz hn
  exact ⟨t, h, by rw [hres, toNat_rshftRes], hz, hn, hframe⟩

/-- Settles O37: the shape with Z and N at the register after `r`; Z is of the result, N stays that of the source. -/
theorem andResult : Obligations.AndResult := by
  intro r k s hk
  obtain rfl := eq_nextReg hk
  obtain ⟨t, h, hres, hz, hn, hframe⟩ := exec_reads_of_setZN (exec_and r s)
  rw [← hres] at hz
  exact ⟨t, h, fun b => by rw [hres, BitVec.getLsbD_and], hz, hn, hframe⟩

/-- Settles O39: a register write and the advance, no flag. -/
theorem mvResult : Obligations.MvResult := fun rd rs s =>
  ⟨_, exec_mv rd rs s, by simp, rfl, (registerFrame_setReg s rd (s.reg rs) []).setPc _⟩

/-- Settles O40: the shape with Z, N and C, where C tells a sum above 255. -/
theorem addResult : Obligations.AddResult := by
  intro rd rs s
  obtain ⟨t, h, hres, hz, hn, hc, hframe⟩ := exec_reads_of_setZNC (exec_add rd rs s)
  rw [← hres] at hz hn
  exact ⟨t, h, by rw [hres, toNat_addRes], hz, hn, hc, hframe⟩

/-- Settles O41: the shape with Z, N and C, where C is the borrow. -/
theorem subResult : Obligations.SubResult := by
  intro rd rs s
  obtain ⟨t, h, hres, hz, hn, hc, hframe⟩ := exec_reads_of_setZNC (exec_sub rd rs s)
  rw [← hres] at hz hn
  rw [subBorrow_eq_decide_lt] at hc
  exact ⟨t, h, by rw [hres, toNat_subRes], hz, hn, hc, hframe⟩

end Sys2Proof.Machine
end

section
/-! SUPPORT. The frame of an instruction that writes LNK and the pc alone, and the fetch after a jump out of the program
(spec/42_control_transfer.md). -/

namespace Sys2Proof.Machine

/-- Everything but LNK and the pc is unchanged: a `RegisterFrame` with no register and no flag written, and LNK left free. -/
def LinkFrame (s t : State) : Prop :=
  SameRegsBut [] s t ∧ SameFlagsBut [] s t ∧ SameMemory s t ∧ SamePorts s t ∧ SameLaunch s t

theorem LinkFrame.refl (s : State) : LinkFrame s s :=
  ⟨fun _ _ => rfl, fun _ _ => rfl, fun _ => rfl, ⟨rfl, rfl⟩, rfl, rfl, rfl⟩

theorem LinkFrame.setPc {s t : State} (h : LinkFrame s t) (k : Nat) : LinkFrame s (t.setPc k) := h

theorem LinkFrame.saveLink {s t : State} (h : LinkFrame s t) : LinkFrame s t.saveLink := h

/-- Nothing bounds a jump's target when it is taken: a target past the program halts at the next fetch (R201, R141). -/
theorem step_setPc_past_end {s : State} {n : Nat} (hm : s.mode = .running) (hn : s.plen ≤ n) :
    step (s.setPc n) = .next ((s.setPc n).setMode (.halted (.outOfProgram n))) :=
  step_past_end (s := s.setPc n) hm hn

end Sys2Proof.Machine
end

section
/-! PROOFS. The link and control-transfer instructions (spec/42_control_transfer.md). -/

namespace Sys2Proof.Machine

/-- Settles O43: a register write and the advance, no flag. -/
theorem mvlnkResult : Obligations.MvlnkResult := fun r s =>
  ⟨_, exec_mvlnk r s, by simp, rfl, (registerFrame_setReg s r s.lnk []).setPc _⟩

/-- Settles O44: the rule of `j` sets the pc alone, and the next step fetches there. -/
theorem jumpResult : Obligations.JumpResult := fun r s =>
  ⟨_, exec_j r s, rfl, rfl, step_setPc_past_end⟩

/-- Settles O45: the link is whole because the program has 1 to 256 words; the pc is that of a jump. -/
theorem jlnkResult : Obligations.JlnkResult := by
  intro r s hpc hplen
  have hlink : s.saveLink.lnk.toNat = (s.pc + 1) % s.plen := s.saveLink_toNat (Nat.zero_lt_of_lt hpc) hplen
  obtain ⟨hregs, hflags, hmem, hports, hlaunch⟩ := (LinkFrame.refl s).saveLink.setPc (s.reg r).toNat
  exact ⟨_, exec_jlnk r s, hlink, rfl, hregs, hflags, hmem, hports, hlaunch, step_setPc_past_end (s := s.saveLink)⟩

/-- Settles O46: taken it is the jump of `j`, not taken the wrapped next slot. -/
theorem jcndResult : Obligations.JcndResult := fun cnd r s =>
  ⟨exec_jcnd_taken r cnd s, exec_jcnd_not_taken r cnd s,
    fun hc hm hend => ⟨_, exec_jcnd_taken r cnd s hc, step_setPc_past_end hm hend⟩⟩

/-- Settles O47: taken it is the call of `jlnk`, not taken it sets the pc alone. -/
theorem jlnkcndResult : Obligations.JlnkcndResult := by
  intro cnd r s hpc hplen
  cases hc : s.flag cnd with
  | true =>
    obtain ⟨t, hjlnk, hlink, htarget, hregs, hflags, hmem, hports, hlaunch, hpast⟩ := jlnkResult r s hpc hplen
    have hcall : exec (.jlnkcnd cnd r) s = .next t := (exec_jlnkcnd_taken r cnd s hc).trans hjlnk
    exact ⟨t, hcall, fun _ => ⟨hlink, htarget⟩, nofun, hregs, hflags, hmem, hports, hlaunch, fun _ => hpast⟩
  | false =>
    obtain ⟨hregs, hflags, hmem, hports, hlaunch⟩ := (LinkFrame.refl s).setPc s.wrapNext
    exact ⟨_, exec_jlnkcnd_not_taken r cnd s hc, nofun, fun _ => ⟨rfl, rfl⟩, hregs, hflags, hmem, hports, hlaunch, nofun⟩

end Sys2Proof.Machine
end

section
/-! PROOFS. The load and store instructions (spec/44_load_store.md). -/

namespace Sys2Proof.Machine

/-! ## The effective address (R250) -/

theorem toNat_effAddr (base : Byte) (ofs : Offset) :
    ((effAddr base ofs).toNat : Int) = ((base.toNat : Int) - ofs.toNat) % 256 := by
  rw [effAddr, BitVec.toNat_ofInt]
  omega

theorem eq_effAddr {a base : Byte} {ofs : Offset} (h : (a.toNat : Int) = ((base.toNat : Int) - ofs.toNat) % 256) :
    a = effAddr base ofs :=
  BitVec.eq_of_toNat_eq (Int.ofNat.inj (h.trans (toNat_effAddr base ofs).symm))

/-! ## The obligations -/

/-- Settles O50: the base register is none that `st` writes, and `ld` writes its destination alone. -/
theorem effectiveAddress : Obligations.EffectiveAddress :=
  ⟨toNat_effAddr, fun _ _ _ _ _ h => exec_reg_of_not_written h (by simp [writtenReg]),
    fun _ _ _ _ _ hne h => exec_reg_of_not_written h (by simpa [writtenReg] using hne)⟩

/-- Settles O51: the shape with Z and N, where the result is the byte at the address of the old base. -/
theorem ldResult : Obligations.LdResult := by
  intro ofs rd rb s
  obtain ⟨t, h, hres, hz, hn, hpc, hframe⟩ := exec_reads_of_setZN (exec_ld rd rb ofs s)
  rw [← hres] at hz hn
  exact ⟨t, h, fun a ha => by rw [hres, eq_effAddr ha], hz, hn, hpc, hframe⟩

/-- Settles O52: a memory write, which is read back at its address and nowhere else, and the advance. -/
theorem stResult : Obligations.StResult := by
  intro ofs rs rb s
  refine ⟨_, exec_st rs rb ofs s, ?_, rfl, fun _ _ => rfl, fun _ _ => rfl, rfl, ⟨rfl, rfl⟩, rfl, rfl, rfl⟩
  rintro a rfl
  exact ⟨toNat_effAddr _ ofs, by simp, fun b hb => by simp [hb]⟩

end Sys2Proof.Machine
end

section
/-! PROOFS. The invariant of every loaded core: what one instruction does to each part of it, every step, and the loaded
state (spec/10_state.md, spec/40_execution_cycle.md, spec/60_exceptions.md section 5). -/

namespace Sys2Proof.Machine

/-! ## What an instruction does to each part of the invariant -/

theorem State.wrapNext_lt {s : State} (h : 0 < s.plen) : s.wrapNext < s.plen := Nat.mod_lt _ h

/-- Every instruction keeps data memory canonical: `st` alone writes it (R47, R63). -/
theorem exec_mem_wf {i : Instr} {s t : State} (h : exec i s = .next t) (hs : s.mem.wf = true) : t.mem.wf = true := by
  cases i with
  | st ofs rs rb =>
    cases h
    exact s.memWrite_wf _ _ hs
  | set => obtain ⟨v, -, rfl⟩ | ⟨-, rfl⟩ := exec_set_cases h <;> exact hs
  | jcnd => obtain ⟨-, rfl⟩ | ⟨-, rfl⟩ := exec_jcnd_cases h <;> exact hs
  | jlnkcnd => obtain ⟨-, rfl⟩ | ⟨-, rfl⟩ := exec_jlnkcnd_cases h <;> exact hs
  | _ =>
    cases h
    exact hs

/-- A jump's target is an 8-bit number, and every other pc an instruction leaves is at most `PLEN` (R43, R149). -/
theorem exec_pc_le {i : Instr} {s t : State} (h : exec i s = .next t) (hpc : s.pc < s.plen) (hplen : s.plen ≤ 256) :
    t.pc ≤ 256 := by
  have htarget (r : Reg) : (s.reg r).toNat ≤ 256 := Nat.le_of_lt (s.reg r).isLt
  have hwrap : s.wrapNext ≤ 256 := (State.wrapNext_lt (Nat.zero_lt_of_lt hpc)).le.trans hplen
  cases i with
  | j r | jlnk r =>
    cases h
    exact htarget r
  | jcnd cnd r =>
    obtain ⟨-, rfl⟩ | ⟨-, rfl⟩ := exec_jcnd_cases h
    · exact htarget r
    · exact hwrap
  | jlnkcnd cnd r =>
    obtain ⟨-, rfl⟩ | ⟨-, rfl⟩ := exec_jlnkcnd_cases h
    · exact htarget r
    · exact hwrap
  | set r =>
    obtain ⟨v, hv, rfl⟩ | ⟨-, rfl⟩ := exec_set_cases h
    · exact (Nat.succ_le_of_lt (s.progRead_lt _ v hv)).trans hplen
    · exact hpc.le.trans hplen
  | _ =>
    have hnext : t.pc = s.pc + 1 := exec_pc_of_advancesByOne rfl h
    omega

/-- LNK is kept, or it is the link that a call saves (R41, R202, R204). -/
theorem exec_lnk_cases {i : Instr} {s t : State} (h : exec i s = .next t) :
    t.lnk = s.lnk ∨
    (t.lnk = s.saveLink.lnk ∧ ((∃ r, i = .jlnk r) ∨ ∃ cnd r, i = .jlnkcnd cnd r ∧ s.flag cnd = true)) := by
  cases i with
  | jlnk r =>
    cases h
    exact .inr ⟨rfl, .inl ⟨r, rfl⟩⟩
  | jlnkcnd cnd r =>
    obtain ⟨hc, rfl⟩ | ⟨-, rfl⟩ := exec_jlnkcnd_cases h
    · exact .inr ⟨rfl, .inr ⟨cnd, r, rfl, hc⟩⟩
    · exact .inl rfl
  | set => obtain ⟨v, -, rfl⟩ | ⟨-, rfl⟩ := exec_set_cases h <;> exact .inl rfl
  | jcnd => obtain ⟨-, rfl⟩ | ⟨-, rfl⟩ := exec_jcnd_cases h <;> exact .inl rfl
  | _ =>
    cases h
    exact .inl rfl

/-! ## The invariant (R149, R289) -/

/-- Halting keeps the invariant when the recorded address is from `PLEN` to 256: the mode alone is written (R275). -/
theorem State.Inv.halt {s : State} (hs : s.Inv) {a : Nat} (hlo : s.plen ≤ a) (hhi : a ≤ 256) :
    (s.setMode (.halted (.outOfProgram a))).Inv where
  mem := hs.mem
  prog := hs.prog
  pc := hs.pc
  overflow := hs.overflow
  link := hs.link
  halted := by
    rintro f ⟨⟩
    exact ⟨a, rfl, hlo, hhi⟩

/-- The instruction a running core executes keeps the invariant: its word exists, so the pc is below `PLEN`. -/
theorem State.Inv.exec {s t : State} {i : Instr} (hs : s.Inv) (hm : s.mode = .running) (hpc : s.pc < s.plen)
    (h : exec i s = .next t) : t.Inv := by
  obtain ⟨t', h', hprog, -, hmode | ⟨r, -, hend, rfl⟩⟩ := exec_next i s
  · cases h'.symm.trans h
    have hplen : t.plen = s.plen := congrArg List.length hprog
    have hlink : t.lnk = 0#8 ∨ t.lnk.toNat < t.plen := by
      obtain hkept | ⟨hsaved, -⟩ := exec_lnk_cases h
      · rw [hkept, hplen]
        exact hs.link
      · have hpos : 0 < s.plen := Nat.zero_lt_of_lt hpc
        rw [hsaved, hplen, s.saveLink_toNat hpos hs.prog]
        exact .inr (State.wrapNext_lt hpos)
    exact {
      mem := exec_mem_wf h hs.mem
      prog := hplen ▸ hs.prog
      pc := exec_pc_le h hpc hs.prog
      overflow := (exec_sameFlagsBut h .v (overflow_not_mem_writtenFlags i)).trans hs.overflow
      link := hlink
      halted := fun f hf => by cases (hmode.trans hm).symm.trans hf }
  · cases h'.symm.trans h
    exact hs.halt hend ((Nat.succ_le_of_lt hpc).trans hs.prog)

theorem State.Inv.loaded {P : List Byte} (I : List Byte) (h : P.length ≤ 256) : (State.loaded P I).Inv where
  mem := Memory.nil_wf
  prog := h
  pc := Nat.zero_le 256
  overflow := State.flag_loaded .v P I
  link := .inl rfl
  halted := nofun

/-! ## The obligations -/

/-- Settles O14: a halted core stays as it is, a fetch past the end halts at a pc of at most 256, and the instruction of
an existing word keeps each part of the invariant. -/
theorem stepKeepsInvariant : Obligations.StepKeepsInvariant := by
  intro s t hs h
  obtain ⟨f, -, rfl⟩ | ⟨-, hend, rfl⟩ | ⟨hm, w, hw, hexec⟩ := step_next h
  · exact hs
  · exact hs.halt hend hs.pc
  · exact hs.exec hm (s.progRead_lt _ w hw) hexec

/-- Settles O15: every field of the loaded state is a literal but the program, whose bound is the hypothesis. -/
theorem loadedStateMeetsInvariant : Obligations.LoadedStateMeetsInvariant :=
  ⟨State.Inv.loaded [] (Nat.zero_le 256), fun _ I h => State.Inv.loaded I h⟩

end Sys2Proof.Machine
end

section
/-! PROOFS. The rules of the state about all instructions, continued (spec/10_state.md): the flags an instruction does not
write, who writes and reads LNK, and the ports. -/

namespace Sys2Proof.Machine

/-! ## LNK (R41) -/

/-- An instruction other than `mvlnk` loses a change of LNK when it is a call, and otherwise carries it through. -/
theorem exec_with_lnk {i : Instr} {s t : State} (v : Byte) (hi : ∀ r, i ≠ .mvlnk r) (h : exec i s = .next t) :
    exec i { s with lnk := v } = .next t ∨ exec i { s with lnk := v } = .next { t with lnk := v } := by
  cases i with
  | mvlnk r => exact absurd rfl (hi r)
  | jlnk r =>
    cases h
    exact .inl rfl
  | jlnkcnd cnd r =>
    obtain ⟨hc, rfl⟩ | ⟨hc, rfl⟩ := exec_jlnkcnd_cases h
    · exact .inl (exec_jlnkcnd_taken r cnd { s with lnk := v } hc)
    · exact .inr (exec_jlnkcnd_not_taken r cnd { s with lnk := v } hc)
  | jcnd cnd r =>
    obtain ⟨hc, rfl⟩ | ⟨hc, rfl⟩ := exec_jcnd_cases h
    · exact .inr (exec_jcnd_taken r cnd { s with lnk := v } hc)
    · exact .inr (exec_jcnd_not_taken r cnd { s with lnk := v } hc)
  | set r =>
    obtain ⟨w, hw, rfl⟩ | ⟨hw, rfl⟩ := exec_set_cases h
    · exact .inr (exec_set_some r { s with lnk := v } w hw)
    · exact .inr (exec_set_none r { s with lnk := v } hw)
  | _ =>
    cases h
    exact .inr rfl

/-! ## The ports (R49, R51) -/

/-- No instruction but `in` and `out` writes a port. -/
theorem exec_samePorts {i : Instr} {s t : State} (h : exec i s = .next t) (hin : ∀ r, i ≠ .inp r)
    (hout : ∀ r, i ≠ .out r) : SamePorts s t := by
  cases i with
  | inp r => exact absurd rfl (hin r)
  | out r => exact absurd rfl (hout r)
  | set => obtain ⟨v, -, rfl⟩ | ⟨-, rfl⟩ := exec_set_cases h <;> exact ⟨rfl, rfl⟩
  | jcnd => obtain ⟨-, rfl⟩ | ⟨-, rfl⟩ := exec_jcnd_cases h <;> exact ⟨rfl, rfl⟩
  | jlnkcnd => obtain ⟨-, rfl⟩ | ⟨-, rfl⟩ := exec_jlnkcnd_cases h <;> exact ⟨rfl, rfl⟩
  | _ =>
    cases h
    exact ⟨rfl, rfl⟩

/-- `in` advances the cursor, and no other instruction moves it (R49). -/
theorem exec_icur_cases {i : Instr} {s t : State} (h : exec i s = .next t) :
    (∃ r, i = .inp r ∧ t.icur = s.icur + 1) ∨ ((∀ r, i ≠ .inp r) ∧ t.icur = s.icur) := by
  cases i with
  | inp r =>
    cases h
    exact .inl ⟨r, rfl, rfl⟩
  | out r =>
    cases h
    exact .inr ⟨nofun, rfl⟩
  | _ => exact .inr ⟨nofun, (exec_samePorts h nofun nofun).1⟩

/-- `out` appends its register to the output, and no other instruction writes it (R51). -/
theorem exec_outbuf_cases {i : Instr} {s t : State} (h : exec i s = .next t) :
    t.outbuf = s.outbuf ∨ ∃ r, i = .out r ∧ t.outbuf = s.outbuf ++ [s.reg r] := by
  cases i with
  | inp r =>
    cases h
    exact .inl rfl
  | out r =>
    cases h
    exact .inr ⟨r, rfl, rfl⟩
  | _ => exact .inl (exec_samePorts h nofun nofun).2

/-- An instruction other than `in` carries a change of the input through (R49). -/
theorem exec_with_inbuf {i : Instr} {s t : State} (l : List Byte) (hi : ∀ r, i ≠ .inp r) (h : exec i s = .next t) :
    exec i { s with inbuf := l } = .next { t with inbuf := l } := by
  cases i with
  | inp r => exact absurd rfl (hi r)
  | jlnkcnd cnd r =>
    obtain ⟨hc, rfl⟩ | ⟨hc, rfl⟩ := exec_jlnkcnd_cases h
    · exact exec_jlnkcnd_taken r cnd { s with inbuf := l } hc
    · exact exec_jlnkcnd_not_taken r cnd { s with inbuf := l } hc
  | jcnd cnd r =>
    obtain ⟨hc, rfl⟩ | ⟨hc, rfl⟩ := exec_jcnd_cases h
    · exact exec_jcnd_taken r cnd { s with inbuf := l } hc
    · exact exec_jcnd_not_taken r cnd { s with inbuf := l } hc
  | set r =>
    obtain ⟨w, hw, rfl⟩ | ⟨hw, rfl⟩ := exec_set_cases h
    · exact exec_set_some r { s with inbuf := l } w hw
    · exact exec_set_none r { s with inbuf := l } hw
  | _ =>
    cases h
    rfl

/-- A step keeps the output, or it executes the fetched `out` and appends its register. -/
theorem step_outbuf_cases {s t : State} (h : step s = .next t) :
    t.outbuf = s.outbuf ∨ ∃ r, s.fetched = some (.out r) ∧ t.outbuf = s.outbuf ++ [s.reg r] := by
  obtain ⟨f, -, rfl⟩ | ⟨-, -, rfl⟩ | ⟨hm, w, hw, hexec⟩ := step_next h
  · exact .inl rfl
  · exact .inl rfl
  · obtain hkept | ⟨r, hout, happ⟩ := exec_outbuf_cases hexec
    · exact .inl hkept
    · exact .inr ⟨r, by simp [State.fetched_of_running hm, hw, hout], happ⟩

/-- A run of `n` steps appends at most `n` bytes to the output. -/
theorem run_outbuf (n : Nat) {s t : State} (h : Host.Core.run core n s = .next t) :
    ∃ l, t.outbuf = s.outbuf ++ l ∧ l.length ≤ n := by
  induction n generalizing s with
  | zero =>
    cases h
    exact ⟨[], by simp⟩
  | succ n ih =>
    obtain ⟨u, hu, hrun⟩ := run_succ n s t h
    obtain ⟨l, hl, hlen⟩ := ih hrun
    obtain hkept | ⟨r, -, happ⟩ := step_outbuf_cases hu
    · exact ⟨l, hkept ▸ hl, Nat.le_succ_of_le hlen⟩
    · exact ⟨s.reg r :: l, by simp [hl, happ], Nat.succ_le_succ hlen⟩

/-! ## The obligations -/

/-- Settles O22, by the frame of the flags. -/
theorem unlistedFlagsKeepTheirValue : Obligations.UnlistedFlagsKeepTheirValue := fun _ _ _ => exec_sameFlagsBut

/-- Settles O26: LNK is kept unless a call saves the link, and only `mvlnk` reads it. -/
theorem linkWrittenByCallsReadByMvlnk : Obligations.LinkWrittenByCallsReadByMvlnk := by
  refine ⟨fun i s t h hne => ?_, fun i s t v => exec_with_lnk v⟩
  obtain hkept | ⟨-, hcall⟩ := exec_lnk_cases h
  · exact absurd hkept hne
  · exact hcall

/-- Settles O28: `in` alone moves the cursor, and every other instruction carries a change of the input through. -/
theorem onlyInReadsTheInput : Obligations.OnlyInReadsTheInput :=
  ⟨fun _ _ => ⟨rfl, rfl⟩, fun _ _ _ => exec_icur_cases, fun _ _ _ l => exec_with_inbuf l⟩

/-- Settles O29: every step keeps the output or appends the register of the `out` it executes. -/
theorem outputOnlyAppended : Obligations.OutputOnlyAppended :=
  ⟨fun n _ _ => run_outbuf n, fun _ _ h hne => (step_outbuf_cases h).resolve_left hne⟩

end Sys2Proof.Machine
end

section
/-! PROOFS. Data memory as data: the canonical form is determined by its 256 bytes, and only a store changes a byte
(spec/10_state.md section 6, spec/20_memory.md). -/

namespace Sys2Proof.Machine

/-! ## The canonical form (R47) -/

@[simp] theorem Memory.read_nil (a : Nat) : Memory.read [] a = 0#8 := rfl

theorem Memory.read_cons (k a : Nat) (v : Byte) (m : Memory) :
    Memory.read ((k, v) :: m) a = if k = a then v else m.read a := rfl

/-- Below the bound of a canonical list no address is listed. -/
theorem Memory.read_of_lt {m : Memory} {lo a : Nat} (hm : Memory.wfFrom lo m = true) (ha : a < lo) : m.read a = 0#8 := by
  induction m generalizing lo with
  | nil => rfl
  | cons cell m ih =>
    obtain ⟨k, v⟩ := cell
    obtain ⟨hlo, -, -, htail⟩ := (Memory.wfFrom_cons lo k v m).mp hm
    rw [Memory.read_cons, if_neg (by omega), ih htail (by omega)]

/-- A byte other than 0 that a canonical list holds stands at its first address or after it. -/
theorem Memory.head_le_of_read_ne {m : Memory} {lo k a : Nat} {v : Byte} (hm : Memory.wfFrom lo ((k, v) :: m) = true)
    (ha : Memory.read ((k, v) :: m) a ≠ 0#8) : k ≤ a := by
  obtain ⟨-, hk, hv, htail⟩ := (Memory.wfFrom_cons lo k v m).mp hm
  have hhead : Memory.wfFrom k ((k, v) :: m) = true := (Memory.wfFrom_cons k k v m).mpr ⟨le_rfl, hk, hv, htail⟩
  exact Nat.le_of_not_lt fun hlt => ha (Memory.read_of_lt hhead hlt)

/-- Two canonical lists with the same bytes are the same list: their first addresses are each at most the other, and behind
them the lists agree again. -/
theorem Memory.wfFrom_ext {m k : Memory} {lo hi : Nat} (hm : Memory.wfFrom lo m = true) (hk : Memory.wfFrom hi k = true)
    (h : ∀ a < 256, m.read a = k.read a) : m = k := by
  induction m generalizing k lo hi with
  | nil =>
    cases k with
    | nil => rfl
    | cons cell k =>
      obtain ⟨b, w⟩ := cell
      obtain ⟨-, hb, hw, -⟩ := (Memory.wfFrom_cons hi b w k).mp hk
      exact absurd (by simpa [Memory.read_cons] using (h b hb).symm) hw
  | cons cell m ih =>
    obtain ⟨a, v⟩ := cell
    obtain ⟨-, ha, hv, hmtail⟩ := (Memory.wfFrom_cons lo a v m).mp hm
    have hreada : Memory.read ((a, v) :: m) a = v := by simp [Memory.read_cons]
    cases k with
    | nil => exact absurd (hreada.symm.trans (h a ha)) hv
    | cons cell k =>
      obtain ⟨b, w⟩ := cell
      obtain ⟨-, hb, hw, hktail⟩ := (Memory.wfFrom_cons hi b w k).mp hk
      have hreadb : Memory.read ((b, w) :: k) b = w := by simp [Memory.read_cons]
      have hba : b ≤ a := Memory.head_le_of_read_ne hk (by rwa [← h a ha, hreada])
      have hab : a ≤ b := Memory.head_le_of_read_ne hm (by rwa [h b hb, hreadb])
      obtain rfl : a = b := Nat.le_antisymm hab hba
      obtain rfl : v = w := hreada.symm.trans ((h a ha).trans hreadb)
      have htail : ∀ c < 256, Memory.read m c = Memory.read k c := by
        intro c hc
        by_cases hac : a = c
        · subst hac
          rw [Memory.read_of_lt hmtail a.lt_succ_self, Memory.read_of_lt hktail a.lt_succ_self]
        · simpa [Memory.read_cons, hac] using h c hc
      rw [ih hmtail hktail htail]

/-! ## The obligations -/

/-- Settles O17: the 256 addresses are the 8-bit words, and the same bytes at them are the same canonical list. -/
theorem equalBytesEqualMemory : Obligations.EqualBytesEqualMemory := by
  intro m k hm hk h
  refine Memory.wfFrom_ext hm hk fun a ha => ?_
  have hword : (BitVec.ofNat 8 a).toNat = a := Nat.mod_eq_of_lt ha
  exact hword ▸ h (BitVec.ofNat 8 a)

/-- Settles O19: a step leaves the store it makes over the bytes it started from. -/
theorem onlyStoresChangeMemory : Obligations.OnlyStoresChangeMemory := by
  intro s t h a hne
  have hread := step_memRead h a
  cases hstore : s.nextStore with
  | none => exact absurd (by simpa [hstore] using hread) hne
  | some store =>
    obtain ⟨b, v⟩ := store
    simp only [hstore, Option.toList_some, lastStored_singleton] at hread
    split at hread
    next hb => exact ⟨v, by rw [hb], hread⟩
    next => exact absurd hread hne

end Sys2Proof.Machine
end

section
/-! PROOFS. The lifecycle and the host's interface: what `Step()` answers in each mode, which images `Reset` takes, and the
query (spec/00_scope.md section 4, spec/40_execution_cycle.md, spec/70_reset_and_hazards.md section 1). -/

namespace Sys2Proof

/-! ## Images (R301) -/

theorem BitString.wf_iff {b : BitString} : BitString.wf b = true ↔ b.length = 8 := by simp [BitString.wf]

theorem Image.wf_iff {p : List BitString} : Image.wf p = true ↔ p.length ≤ 256 ∧ ∀ b ∈ p, b.length = 8 := by
  simp [Image.wf, BitString.wf_iff]

/-- The string written from a word has that word (R105). -/
@[simp] theorem BitString.toWord_ofWord (w : Byte) : BitString.toWord (BitString.ofWord w) = .ok w := by
  rw [BitString.toWord_ok _ (BitString.ofWord_wf w), BitString.toNat_ofWord, BitVec.ofNat_toNat, BitVec.setWidth_eq]

theorem imageWords_cons {b : BitString} {p : List BitString} {w : Byte} {ws : List Byte}
    (hb : BitString.toWord b = .ok w) (hp : imageWords p = .ok ws) : imageWords (b :: p) = .ok (w :: ws) := by
  simp only [imageWords, hb, hp]

/-- Word strings of the right length have their words, as many as there are strings. -/
theorem imageWords_of_length {p : List BitString} (h : ∀ b ∈ p, b.length = 8) :
    ∃ ws, imageWords p = .ok ws ∧ ws.length = p.length := by
  induction p with
  | nil => exact ⟨[], rfl, rfl⟩
  | cons b p ih =>
    obtain ⟨hb, hp⟩ := List.forall_mem_cons.mp h
    obtain ⟨ws, hws, hlen⟩ := ih hp
    exact ⟨_, imageWords_cons (BitString.toWord_ok b (BitString.wf_iff.mpr hb)) hws, congrArg (· + 1) hlen⟩

/-- An image written from words has these words. -/
theorem imageWords_map_ofWord (P : List Byte) : imageWords (P.map BitString.ofWord) = .ok P := by
  induction P with
  | nil => rfl
  | cons w P ih => exact imageWords_cons (BitString.toWord_ofWord w) ih

theorem Image.wf_map_ofWord {P : List Byte} (h : P.length ≤ 256) : Image.wf (P.map BitString.ofWord) = true :=
  Image.wf_iff.mpr ⟨by simpa using h, by simp⟩

end Sys2Proof

namespace Sys2Proof.Machine

/-! ## Steps and runs -/

/-- A step that answers a next state reports what that state's mode records (R275). -/
theorem stepCommand_of_next {s t : State} (h : step s = .next t) :
    Command.step.run s = .next ⟨t, t.mode.recorded⟩ := by
  simp only [Command.run, stepCommand, h]

/-- A step that faults without a next state reports the fault and leaves the state (R274). -/
theorem stepCommand_of_fault {s : State} {f : Fault} (h : step s = .fault f) :
    Command.step.run s = .next ⟨s, some f⟩ := by
  simp only [Command.run, stepCommand, h]

/-- A state whose step is that state again stays so over any run. -/
theorem run_of_step_self {s : State} (h : step s = .next s) (n : Nat) : Host.Core.run core n s = .next s := by
  have hcore : core.step s = .next s := h
  induction n with
  | zero => rfl
  | succ n ih => simp only [Host.Core.run, hcore, ih]

/-! ## Reset (R300 to R305) -/

theorem resetCommand_of_words {p : List BitString} {ws : List Byte} (I : List Byte) (hp : Image.wf p = true)
    (hws : imageWords p = .ok ws) : resetCommand p I = .next ⟨State.loaded ws I, none⟩ := by
  simp only [resetCommand, hp, if_true, hws]

theorem resetCommand_of_not_wf {p : List BitString} (I : List Byte) (hp : Image.wf p = false) :
    resetCommand p I = .refused .illFormedImage := by
  simp [resetCommand, hp]

/-- `Reset` takes a well-formed image and loads its words, as many as the image has. -/
theorem resetCommand_of_wf {p : List BitString} (I : List Byte) (hp : Image.wf p = true) :
    ∃ ws, ws.length ≤ 256 ∧ resetCommand p I = .next ⟨State.loaded ws I, none⟩ := by
  obtain ⟨hlen, hbits⟩ := Image.wf_iff.mp hp
  obtain ⟨ws, hws, hwslen⟩ := imageWords_of_length hbits
  exact ⟨ws, hwslen ▸ hlen, resetCommand_of_words I hp hws⟩

/-! ## The query (R11, R50) -/

@[simp] theorem State.length_memoryBytes (s : State) : s.memoryBytes.length = 256 := by simp [State.memoryBytes]

theorem State.memoryBytes_getElem? (s : State) (a : Byte) : s.memoryBytes[a.toNat]? = some (s.memRead a) := by
  have ha : a.toNat < 256 := a.isLt
  simp [State.memoryBytes, State.memRead, ha]

theorem State.consumed_append_remaining (s : State) : s.consumed ++ s.remaining = s.inbuf := List.take_append_drop _ _

theorem State.length_consumed (s : State) : s.consumed.length = min s.icur s.inbuf.length := by
  simp [State.consumed, State.ilen]

/-! ## What commands keep (R10, R290) -/

/-- A `Reset` that answers leaves a loaded state, which meets the invariant. -/
theorem resetCommand_inv {p : List BitString} {I : List Byte} {r : Response} (h : resetCommand p I = .next r) :
    r.state.Inv := by
  cases hp : Image.wf p with
  | false => cases (resetCommand_of_not_wf I hp).symm.trans h
  | true =>
    obtain ⟨ws, hlen, hreset⟩ := resetCommand_of_wf I hp
    cases hreset.symm.trans h
    exact State.Inv.loaded I hlen

/-- A `Step` leaves the state of its step, or the state as it was when its step faults. -/
theorem stepCommand_state {s : State} {r : Response} (h : Command.step.run s = .next r) :
    step s = .next r.state ∨ r.state = s := by
  cases hs : step s with
  | next t =>
    cases (stepCommand_of_next hs).symm.trans h
    exact .inl rfl
  | fault f =>
    cases (stepCommand_of_fault hs).symm.trans h
    exact .inr rfl
  | refused e => simp [Command.run, stepCommand, hs] at h

/-! ## The obligations -/

/-- Settles O7: no word stands at `pc + 1`, so the rule of `set` is its halt. -/
theorem setWithoutDataWordHalts : Obligations.SetWithoutDataWordHalts := fun r s h =>
  exec_set_none r s ((s.progRead_none _).mpr h)

/-- Settles O8: the step faults before it fetches. -/
theorem unloadedStepFaults : Obligations.UnloadedStepFaults := fun s h =>
  ⟨step_of_unloaded s h, stepCommand_of_fault (step_of_unloaded s h)⟩

/-- Settles O9: the step answers the state itself, whose mode records the fault. -/
theorem haltedCoreStaysAndReports : Obligations.HaltedCoreStaysAndReports := by
  intro s f hm
  have hstep : step s = .next s := step_of_halted s f hm
  refine ⟨?_, run_of_step_self hstep⟩
  rw [stepCommand_of_next hstep, hm, Mode.recorded]

/-- Settles O10: a word at the pc is executed, which keeps the mode or is the halt of a `set` in the last slot; with no word
there the fetch halts. -/
theorem runningStepExecutesOrHalts : Obligations.RunningStepExecutesOrHalts := by
  intro s hm
  cases hw : s.progRead s.pc with
  | none =>
    have hend : s.plen ≤ s.pc := (s.progRead_none _).mp hw
    have hstep := step_past_end hm hend
    exact ⟨_, hstep, stepCommand_of_next hstep, .inr (.inl ⟨hend, rfl⟩)⟩
  | some w =>
    have hpc : s.pc < s.plen := s.progRead_lt _ w hw
    obtain ⟨t, hexec, -, -, hcase⟩ := exec_next (decode w) s
    have hstep : step s = .next t := (step_of_word hm hw).trans hexec
    refine ⟨t, hstep, stepCommand_of_next hstep, ?_⟩
    obtain hmode | ⟨r, hset, hend, rfl⟩ := hcase
    · exact .inl ⟨hpc, hmode.trans hm, w, rfl, hexec⟩
    · have hword : w = encode (.set r) := by rw [← hset, encode_decode]
      exact .inr (.inr ⟨r, congrArg some hword, Nat.le_antisymm hpc hend, rfl⟩)

/-- Settles O11: the image written from the words of `P` is well formed and has these words, so the state is the loaded
one. -/
theorem resetReinitialisesEverything : Obligations.ResetReinitialisesEverything := by
  intro P I s h
  have hreset := resetCommand_of_words I (Image.wf_map_ofWord h) (imageWords_map_ofWord P)
  have hregs : ∀ r, (State.loaded P I).reg r = 0#8 := fun r => by cases r <;> rfl
  exact ⟨_, hreset, hregs, rfl, rfl, rfl, fun _ => rfl, rfl, rfl, rfl, rfl, rfl, rfl⟩

/-- Settles O12: a refused image is not well formed, as a well-formed one is loaded. -/
theorem illFormedImageRefused : Obligations.IllFormedImageRefused := by
  intro p I s
  have hrefused : resetCommand p I = .refused .illFormedImage ↔ ¬ Image.wf p = true := by
    refine ⟨fun h hp => ?_, fun hp => resetCommand_of_not_wf I (Bool.eq_false_of_not_eq_true hp)⟩
    obtain ⟨ws, -, hreset⟩ := resetCommand_of_wf I hp
    cases hreset.symm.trans h
  have hcauses : ¬ Image.wf p = true ↔ 256 < p.length ∨ ∃ b ∈ p, b.length ≠ 8 := by
    simp only [Image.wf_iff, not_and_or, not_le, not_forall, exists_prop]
  exact hrefused.trans hcauses

/-- Settles O13: each register, flag and byte stands at its code or address, and the input is cut at the cursor. -/
theorem queryShowsTheState : Obligations.QueryShowsTheState := by
  intro s
  have hregs : ∀ r : Reg, s.query.regs[r.toBits.toNat]? = some (s.reg r) := fun r => by cases r <;> rfl
  have hflags : ∀ x : Cond, s.query.vczn[x.toBits.toNat]? = some (s.flag x) := fun x => by cases x <;> rfl
  exact ⟨rfl, rfl, rfl, rfl, hregs, hflags, s.length_memoryBytes, s.memoryBytes_getElem?, s.consumed_append_remaining,
    s.length_consumed⟩

/-- Settles O16: by induction over the commands. A `Reset` loads, a `Step` of a state that meets the invariant keeps it, and
a `Step` of an unloaded one faults and leaves it. -/
theorem reachableCoresMeetInvariant : Obligations.ReachableCoresMeetInvariant := by
  intro s hs
  induction hs with
  | powerOn s h => exact .inl h
  | command c s r _ h ih =>
    cases c with
    | reset p I => exact .inr (resetCommand_inv h)
    | step =>
      obtain hstep | hsame := stepCommand_state h
      · obtain hm | hinv := ih
        · cases (step_of_unloaded s hm).symm.trans hstep
        · exact .inr (stepKeepsInvariant s r.state hinv hstep)
      · rwa [hsame]

end Sys2Proof.Machine
end

section
/-! PROOFS. What `ZF`, `NF` and the carries compute, and the data word of `set` (spec/41_register_alu.md). -/

namespace Sys2Proof.Machine

/-! ## The carries as overflows of the unsigned 8-bit operation (C5) -/

section
variable (a b v : Byte)

/-- The C of `inc` mirrors Z: the sum is 256 exactly when its 8-bit result is 0. -/
theorem zf_incRes : zf (incRes v) = BitVec.uaddOverflow v 1#8 := by
  have hv := v.isLt
  simp only [zf, toNat_incRes, BitVec.uaddOverflow, BitVec.toNat_ofNat, decide_eq_decide]
  omega

/-- The C of `dec` tells a result of 255, which is that of 0 alone. -/
theorem decCarry_decRes : decCarry (decRes v) = BitVec.usubOverflow v 1#8 := by
  have hv := v.isLt
  simp only [decCarry, toNat_decRes, BitVec.usubOverflow, BitVec.toNat_ofNat, decide_eq_decide]
  omega

theorem addCarry_eq_uaddOverflow : addCarry a b = BitVec.uaddOverflow a b := rfl

theorem subBorrow_eq_usubOverflow : subBorrow a b = BitVec.usubOverflow a b := subBorrow_eq_decide_lt a b

end

/-! ## The obligations -/

/-- Settles O31: the first by definition, the second because bit 7 is the most significant one. -/
theorem zeroAndNegative : Obligations.ZeroAndNegative := by
  intro v
  have hmsb : nf v = decide (128 ≤ v.toNat) := BitVec.msb_eq_decide v
  exact ⟨decide_eq_true_iff, by rw [hmsb, decide_eq_true_iff]⟩

/-- Settles O38: the program word at `pc + 1` exists, and the rule of `set` writes it to the register and no flag. -/
theorem setResult : Obligations.SetResult := by
  intro r s hpc
  have hword : s.progRead (s.pc + 1) = some s.prog[s.pc + 1] := List.getElem?_eq_getElem hpc
  exact ⟨_, exec_set_some r s _ hword, hword.trans (by simp), rfl, (registerFrame_setReg s r _ []).setPc _⟩

/-- Settles O42: the C that each of the four writes is the overflow of its operation. -/
theorem carryIsUnsignedOverflow : Obligations.CarryIsUnsignedOverflow := by
  intro rd rs s t
  refine ⟨fun h => ?_, fun h => ?_, fun h => ?_, fun h => ?_⟩ <;> cases h
  · simp [State.advance_eq, zf_incRes]
  · simp [State.advance_eq, decCarry_decRes]
  · simp [State.advance_eq, addCarry_eq_uaddOverflow]
  · simp [State.advance_eq, subBorrow_eq_usubOverflow]

end Sys2Proof.Machine
end

section
/-! PROOFS. The input and output instructions (spec/43_io.md). -/

namespace Sys2Proof.Machine

theorem State.inByte_of_some {s : State} {v : Byte} (h : s.inbuf[s.icur]? = some v) : s.inByte = v := by
  simp [State.inByte, List.getD, h]

/-- An exhausted input gives 0 (R230). -/
theorem State.inByte_of_exhausted {s : State} (h : s.inbuf.length ≤ s.icur) : s.inByte = 0#8 := by
  simp [State.inByte, List.getD, h]

/-! ## The obligations -/

/-- Settles O48: the register and flag writes have the frame of a register instruction, and the cursor is the one port
that moves. -/
theorem inResult : Obligations.InResult := by
  intro r s
  obtain ⟨hregs, hflags, hlnk, hmem, ⟨-, hout⟩, hlaunch⟩ :=
    (registerFrame_setReg s r s.inByte [.z, .n]).setZN (by simp) (by simp) (zf s.inByte) (nf s.inByte)
  refine ⟨_, exec_inp r s, fun v hv => ?_, fun hend => ?_, rfl, by simp, by simp, rfl,
    hregs, hflags, hlnk, hmem, hout, hlaunch⟩
  · simp [State.inByte_of_some hv]
  · simp [State.inByte_of_exhausted hend]

/-- Settles O49: the rule of `out` appends the register and sets the pc. -/
theorem outResult : Obligations.OutResult := fun r s =>
  ⟨_, exec_out r s, rfl, rfl, rfl, fun _ _ => rfl, fun _ _ => rfl, rfl, fun _ => rfl, rfl, rfl, rfl⟩

end Sys2Proof.Machine
end

section
/-! PROOFS. Words of the spec's codec vectors (spec/95_test_vectors.md section 2.1). -/

namespace Sys2Proof

/-- Settles O2: the decoder evaluated at fifteen literal words. -/
theorem writtenWordsDecode : Obligations.WrittenWordsDecode := by
  unfold Obligations.WrittenWordsDecode
  decide

end Sys2Proof
end

section
/-! PROOFS. The assembler's slots (spec/30_encoding.md section 6): pass 2 puts every entry at the slot that counts the entries
before it, and pass 1 gives every label the slot where it is defined. -/

namespace Sys2Proof.Asm

section
variable {table : List (List Char × Nat)} {es : List Entry} {p : List ProgEntry}

/-! ## Pass 2 keeps the slots (R121, R123) -/

/-- The words of the entries before a point are as many as these entries' slots, and the rest is resolved after them. -/
theorem resolve_append {pre post : List Entry} (h : resolve table (pre ++ post) = .ok p) :
    ∃ front q, resolve table post = .ok q ∧ p = front ++ q ∧ front.length = slotCount pre := by
  induction pre generalizing p with
  | nil => exact ⟨[], p, h, rfl, rfl⟩
  | cons e pre ih =>
    cases e with
    | labelDef name => exact ih h
    | instr i =>
      obtain ⟨p, hp, rfl⟩ := resolve_instr h
      obtain ⟨front, q, hq, rfl, hlen⟩ := ih hp
      exact ⟨.instr i :: front, q, hq, rfl, congrArg (· + 1) hlen⟩
    | imm m =>
      obtain ⟨p, v, hp, rfl, -⟩ := resolve_imm h
      obtain ⟨front, q, hq, rfl, hlen⟩ := ih hp
      exact ⟨.imm v :: front, q, hq, rfl, congrArg (· + 1) hlen⟩

theorem resolve_length (h : resolve table es = .ok p) : p.length = slotCount es := by
  obtain ⟨front, q, hq, rfl, hlen⟩ := resolve_append (es.append_nil.symm ▸ h)
  cases hq
  simpa using hlen

/-- An entry's word stands at the slot that counts the entries before it. -/
theorem resolve_append_cons {pre post : List Entry} {e : Entry} (h : resolve table (pre ++ e :: post) = .ok p) :
    ∃ q, resolve table (e :: post) = .ok q ∧ p[slotCount pre]? = q[0]? := by
  obtain ⟨front, q, hq, rfl, hlen⟩ := resolve_append h
  exact ⟨q, hq, by rw [List.getElem?_append_right hlen.le, hlen, Nat.sub_self]⟩

theorem resolve_instr_at {pre post : List Entry} {i : Instr} (h : resolve table (pre ++ .instr i :: post) = .ok p) :
    p[slotCount pre]? = some (.instr i) := by
  obtain ⟨q, hq, hslot⟩ := resolve_append_cons h
  obtain ⟨rest, -, rfl⟩ := resolve_instr hq
  exact hslot

theorem resolve_lit_at {pre post : List Entry} {v : Byte} (h : resolve table (pre ++ .imm (.lit v) :: post) = .ok p) :
    p[slotCount pre]? = some (.imm v) := by
  obtain ⟨q, hq, hslot⟩ := resolve_append_cons h
  obtain ⟨rest, w, -, rfl, hv | ⟨name, n, hm, -⟩⟩ := resolve_imm hq
  · cases hv
    exact hslot
  · cases hm

theorem resolve_label_at {pre post : List Entry} {name : List Char}
    (h : resolve table (pre ++ .imm (.label name) :: post) = .ok p) :
    ∃ n, slot? table name = some n ∧ n ≤ 255 ∧ p[slotCount pre]? = some (.imm (BitVec.ofNat 8 n)) := by
  obtain ⟨q, hq, hslot⟩ := resolve_append_cons h
  obtain ⟨rest, w, -, rfl, hv | ⟨k, n, hk, hn, hle, rfl⟩⟩ := resolve_imm hq
  · cases hv
  · cases hk
    exact ⟨n, hn, hle, hslot⟩

/-! ## Pass 1 finds the slots (R121, R124) -/

theorem assemble_no_duplicate (h : assemble es = .ok p) : duplicate? (labels 0 es) = none := by
  rw [assemble] at h
  split at h
  next => cases h
  next hnone => exact hnone

theorem duplicate?_cons {name : List Char} {n : Nat} (h : duplicate? ((name, n) :: table) = none) :
    slot? table name = none ∧ duplicate? table = none := by
  rw [duplicate?] at h
  split at h
  next => cases h
  next hnone => exact ⟨by simpa using hnone, h⟩

/-- With no name defined twice, a label's slot counts the entries before its definition. -/
theorem slot?_labels_append {front back : List Entry} {name : List Char} (n : Nat)
    (h : duplicate? (labels n (front ++ .labelDef name :: back)) = none) :
    slot? (labels n (front ++ .labelDef name :: back)) name = some (n + slotCount front) := by
  induction front generalizing n with
  | nil => exact if_pos rfl
  | cons e front ih =>
    cases e with
    | instr i =>
      rw [slotCount_instr, Nat.add_comm _ 1, ← Nat.add_assoc]
      exact ih (n + 1) h
    | imm m =>
      rw [slotCount_imm, Nat.add_comm _ 1, ← Nat.add_assoc]
      exact ih (n + 1) h
    | labelDef k =>
      obtain ⟨hk, hrest⟩ := duplicate?_cons h
      have hslot := ih n hrest
      have hne : k ≠ name := by
        rintro rfl
        cases hk.symm.trans hslot
      exact (if_neg hne).trans hslot

end

/-! ## The obligations -/

/-- Settles O54: pass 2 keeps every entry at its slot, and the slot it takes for a label from the table of pass 1 is where the
label is defined, since no name is defined twice. -/
theorem assemblyResolvesEveryLabel : Obligations.AssemblyResolvesEveryLabel := by
  intro es p h
  have hres : resolve (labels 0 es) es = .ok p := assemble_ok h
  refine ⟨resolve_length hres, ?_, ?_, ?_⟩
  · rintro pre i post rfl
    exact resolve_instr_at hres
  · rintro pre v post rfl
    exact resolve_lit_at hres
  · rintro pre name post rfl
    obtain ⟨n, hn, hle, hslot⟩ := resolve_label_at hres
    refine ⟨?_, fun front back hdef => ?_⟩
    · by_contra hmem
      cases (slot?_labels_of_not_mem 0 hmem).symm.trans hn
    · have hdup := assemble_no_duplicate h
      rw [hdef] at hdup hn
      obtain rfl : 0 + slotCount front = n := Option.some.inj ((slot?_labels_append 0 hdup).symm.trans hn)
      rw [Nat.zero_add] at hle hslot
      exact ⟨hle, hslot⟩

end Sys2Proof.Asm
end
